-- ==== Sys2Proof/Word.lean ====
section
/-! DEFINITION. The value types of the machine (spec 00_scope.md R3, R7): every value is an unsigned
number of a stated width, so each is a bit vector of that width. -/

namespace Sys2Proof

/-- An 8-bit value: a general register, a timer, a memory byte, the immediate `NN` (R10, R15, R20). -/
abbrev Byte := BitVec 8

/-- A 16-bit value: the address register, the program counter, a stack entry, an instruction word
(R12, R13, R14, R45). -/
abbrev Word := BitVec 16

/-- A 4-bit field of an instruction word; `N` of DXYN is used as a number of rows (R46). -/
abbrev Nibble := BitVec 4

/-- The 12-bit address immediate `NNN` (R46). -/
abbrev Addr12 := BitVec 12

/-- A register index, taken from a 4-bit field and so always in range (R10). -/
abbrev Reg := Fin 16

end Sys2Proof
end

