-- ==== Sys2Proof/Syntax.lean ====
section
/-! DEFINITION. The instructions: one constructor per row of spec/opcode_table.json, in the table's order
(30_encoding.md R48), and the assembler lines of R52. -/

namespace Sys2Proof

/-- The 34 instructions. `x` and `y` are register indices, `nn` an 8-bit and `nnn` a 12-bit immediate,
`n` the row count of a sprite (R46, R47). -/
inductive Instr where
  /-- 00E0 `CLS` (R92). -/
  | cls
  /-- 00EE `RET` (R64). -/
  | ret
  /-- 1NNN `JP nnn` (R65). -/
  | jp (nnn : Addr12)
  /-- 2NNN `CALL nnn` (R66). -/
  | call (nnn : Addr12)
  /-- 3XNN `SE Vx, nn` (R67). -/
  | seVxNn (x : Reg) (nn : Byte)
  /-- 4XNN `SNE Vx, nn` (R68). -/
  | sneVxNn (x : Reg) (nn : Byte)
  /-- 5XY0 `SE Vx, Vy` (R69). -/
  | seVxVy (x y : Reg)
  /-- 6XNN `LD Vx, nn` (R73). -/
  | ldVxNn (x : Reg) (nn : Byte)
  /-- 7XNN `ADD Vx, nn` (R74). -/
  | addVxNn (x : Reg) (nn : Byte)
  /-- 8XY0 `LD Vx, Vy` (R75). -/
  | ldVxVy (x y : Reg)
  /-- 8XY1 `OR Vx, Vy` (R76). -/
  | orVxVy (x y : Reg)
  /-- 8XY2 `AND Vx, Vy` (R77). -/
  | andVxVy (x y : Reg)
  /-- 8XY3 `XOR Vx, Vy` (R78). -/
  | xorVxVy (x y : Reg)
  /-- 8XY4 `ADD Vx, Vy` (R79). -/
  | addVxVy (x y : Reg)
  /-- 8XY5 `SUB Vx, Vy` (R80). -/
  | sub (x y : Reg)
  /-- 8XY6 `SHR Vx` (R81); the `Y` field is decoded and kept, but not used. -/
  | shr (x y : Reg)
  /-- 8XY7 `SUBN Vx, Vy` (R82). -/
  | subn (x y : Reg)
  /-- 8XYE `SHL Vx` (R83); the `Y` field is decoded and kept, but not used. -/
  | shl (x y : Reg)
  /-- 9XY0 `SNE Vx, Vy` (R70). -/
  | sneVxVy (x y : Reg)
  /-- ANNN `LD I, nnn` (R86). -/
  | ldINnn (nnn : Addr12)
  /-- BNNN `JP V0, nnn` (R71). -/
  | jpV0Nnn (nnn : Addr12)
  /-- CXNN `RND Vx, nn` (R84). -/
  | rnd (x : Reg) (nn : Byte)
  /-- DXYN `DRW Vx, Vy, n` (R93). -/
  | drw (x y : Reg) (n : Nibble)
  /-- EX9E `SKP Vx` (R99). -/
  | skp (x : Reg)
  /-- EXA1 `SKNP Vx` (R100). -/
  | sknp (x : Reg)
  /-- FX07 `LD Vx, DT` (R102). -/
  | ldVxDt (x : Reg)
  /-- FX0A `LD Vx, K` (R101). -/
  | ldVxK (x : Reg)
  /-- FX15 `LD DT, Vx` (R103). -/
  | ldDtVx (x : Reg)
  /-- FX18 `LD ST, Vx` (R104). -/
  | ldStVx (x : Reg)
  /-- FX1E `ADD I, Vx` (R87). -/
  | addIVx (x : Reg)
  /-- FX29 `LD F, Vx` (R88). -/
  | ldFVx (x : Reg)
  /-- FX33 `LD B, Vx` (R89). -/
  | ldBVx (x : Reg)
  /-- FX55 `LD [I], Vx` (R90). -/
  | ldMemVx (x : Reg)
  /-- FX65 `LD Vx, [I]` (R91). -/
  | ldVxMem (x : Reg)
  deriving DecidableEq, Repr

/-- The mnemonics of R52 (PRESUMED: customary names, no effect on behaviour; log entry 19). -/
inductive Mnemonic where
  | cls | ret | jp | call | se | sne | ld | add | or | and | xor | sub | shr | subn | shl | rnd | drw | skp | sknp
  deriving DecidableEq, Repr

/-- An operand as an assembler line writes it (R52). A number is still any number: that it fits its field
is `AsmLine.wf`. -/
inductive AsmOperand where
  /-- `V0`..`VF`. -/
  | v (k : Nat)
  /-- A number `nn`, `nnn` or `n`. -/
  | num (k : Nat)
  /-- `I`. -/
  | i
  /-- `DT`. -/
  | dt
  /-- `ST`. -/
  | st
  /-- `K`. -/
  | key
  /-- `F`. -/
  | font
  /-- `B`. -/
  | bcd
  /-- `[I]`. -/
  | atI
  deriving DecidableEq, Repr

/-- An assembler line `MNEMONIC operand, operand` (R52). -/
structure AsmLine where
  mnemonic : Mnemonic
  operands : List AsmOperand
  deriving DecidableEq, Repr

/-- The line that R52 writes for an instruction. `SHR` and `SHL` name no `Y`. -/
def Instr.toAsm : Instr → AsmLine
  | .cls => ⟨.cls, []⟩
  | .ret => ⟨.ret, []⟩
  | .jp nnn => ⟨.jp, [.num nnn.toNat]⟩
  | .call nnn => ⟨.call, [.num nnn.toNat]⟩
  | .seVxNn x nn => ⟨.se, [.v x.val, .num nn.toNat]⟩
  | .sneVxNn x nn => ⟨.sne, [.v x.val, .num nn.toNat]⟩
  | .seVxVy x y => ⟨.se, [.v x.val, .v y.val]⟩
  | .ldVxNn x nn => ⟨.ld, [.v x.val, .num nn.toNat]⟩
  | .addVxNn x nn => ⟨.add, [.v x.val, .num nn.toNat]⟩
  | .ldVxVy x y => ⟨.ld, [.v x.val, .v y.val]⟩
  | .orVxVy x y => ⟨.or, [.v x.val, .v y.val]⟩
  | .andVxVy x y => ⟨.and, [.v x.val, .v y.val]⟩
  | .xorVxVy x y => ⟨.xor, [.v x.val, .v y.val]⟩
  | .addVxVy x y => ⟨.add, [.v x.val, .v y.val]⟩
  | .sub x y => ⟨.sub, [.v x.val, .v y.val]⟩
  | .shr x _ => ⟨.shr, [.v x.val]⟩
  | .subn x y => ⟨.subn, [.v x.val, .v y.val]⟩
  | .shl x _ => ⟨.shl, [.v x.val]⟩
  | .sneVxVy x y => ⟨.sne, [.v x.val, .v y.val]⟩
  | .ldINnn nnn => ⟨.ld, [.i, .num nnn.toNat]⟩
  | .jpV0Nnn nnn => ⟨.jp, [.v 0, .num nnn.toNat]⟩
  | .rnd x nn => ⟨.rnd, [.v x.val, .num nn.toNat]⟩
  | .drw x y n => ⟨.drw, [.v x.val, .v y.val, .num n.toNat]⟩
  | .skp x => ⟨.skp, [.v x.val]⟩
  | .sknp x => ⟨.sknp, [.v x.val]⟩
  | .ldVxDt x => ⟨.ld, [.v x.val, .dt]⟩
  | .ldVxK x => ⟨.ld, [.v x.val, .key]⟩
  | .ldDtVx x => ⟨.ld, [.dt, .v x.val]⟩
  | .ldStVx x => ⟨.ld, [.st, .v x.val]⟩
  | .addIVx x => ⟨.add, [.i, .v x.val]⟩
  | .ldFVx x => ⟨.ld, [.font, .v x.val]⟩
  | .ldBVx x => ⟨.ld, [.bcd, .v x.val]⟩
  | .ldMemVx x => ⟨.ld, [.atI, .v x.val]⟩
  | .ldVxMem x => ⟨.ld, [.v x.val, .atI]⟩

end Sys2Proof
end

