-- ==== Sys2Proof/WellFormed.lean ====
section
/-! DEFINITION. What a well-formed instruction is (spec 30_encoding.md R47, R52). The fields of `Instr` carry
their widths in their types, so an instruction as data cannot be ill-formed (R10: "a register index taken
from an instruction is always in range"). An assembler line can: it names registers and numbers of any
size, and the check is that each fits its field. -/

namespace Sys2Proof

/-- A register operand names one of `V0`..`VF` (R52). -/
def isReg (k : Nat) : Bool := decide (k < 16)

/-- `nn` fits 8 bits (R47, R52). -/
def isImm8 (k : Nat) : Bool := decide (k < 256)

/-- `nnn` fits 12 bits (R47, R52). -/
def isImm12 (k : Nat) : Bool := decide (k < 4096)

/-- `n` fits 4 bits (R47, R52). -/
def isImm4 (k : Nat) : Bool := decide (k < 16)

/-- An assembler line names a row of R48 with the operands its syntax has, each fitting its field (R52). -/
def AsmLine.wf (l : AsmLine) : Bool :=
  match l.mnemonic, l.operands with
  | .cls, [] => true
  | .ret, [] => true
  | .jp, [.num a] => isImm12 a
  | .jp, [.v k, .num a] => decide (k = 0) && isImm12 a
  | .call, [.num a] => isImm12 a
  | .se, [.v x, .num k] => isReg x && isImm8 k
  | .se, [.v x, .v y] => isReg x && isReg y
  | .sne, [.v x, .num k] => isReg x && isImm8 k
  | .sne, [.v x, .v y] => isReg x && isReg y
  | .ld, [.v x, .num k] => isReg x && isImm8 k
  | .ld, [.v x, .v y] => isReg x && isReg y
  | .ld, [.v x, .dt] => isReg x
  | .ld, [.v x, .key] => isReg x
  | .ld, [.v x, .atI] => isReg x
  | .ld, [.i, .num a] => isImm12 a
  | .ld, [.dt, .v x] => isReg x
  | .ld, [.st, .v x] => isReg x
  | .ld, [.font, .v x] => isReg x
  | .ld, [.bcd, .v x] => isReg x
  | .ld, [.atI, .v x] => isReg x
  | .add, [.v x, .num k] => isReg x && isImm8 k
  | .add, [.v x, .v y] => isReg x && isReg y
  | .add, [.i, .v x] => isReg x
  | .or, [.v x, .v y] => isReg x && isReg y
  | .and, [.v x, .v y] => isReg x && isReg y
  | .xor, [.v x, .v y] => isReg x && isReg y
  | .sub, [.v x, .v y] => isReg x && isReg y
  | .subn, [.v x, .v y] => isReg x && isReg y
  | .shr, [.v x] => isReg x
  | .shl, [.v x] => isReg x
  | .rnd, [.v x, .num k] => isReg x && isImm8 k
  | .drw, [.v x, .v y, .num n] => isReg x && isReg y && isImm4 n
  | .skp, [.v x] => isReg x
  | .sknp, [.v x] => isReg x
  | _, _ => false

/-- An instruction is well formed iff the line R52 writes for it is. -/
def Instr.wf (i : Instr) : Bool := i.toAsm.wf

end Sys2Proof
end

