-- ==== Sys2Proof/Decode.lean ====
section
/-! DEFINITION. Decoding (spec 30_encoding.md R45 to R51), then the encoder and the assembler (R46, R48, R52).
Decoding is total on any bytes: what is no instruction is rejected by name. -/

namespace Sys2Proof

/-! ## The fields of an instruction word (R46) -/

/-- `op`, the family: bits 15:12. -/
def opField (w : Word) : Nibble := w.extractLsb' 12 4

/-- `X`: bits 11:8, a register index. -/
def xField (w : Word) : Reg := (w.extractLsb' 8 4).toFin

/-- `Y`: bits 7:4, a register index. -/
def yField (w : Word) : Reg := (w.extractLsb' 4 4).toFin

/-- `N`: bits 3:0. -/
def nField (w : Word) : Nibble := w.extractLsb' 0 4

/-- `NN`: bits 7:0. -/
def nnField (w : Word) : Byte := w.extractLsb' 0 8

/-- `NNN`: bits 11:0. -/
def nnnField (w : Word) : Addr12 := w.extractLsb' 0 12

/-! ## The opcode map (R48) -/

/-- One row of R48: a word selects it when `w and mask = pattern`; `build` reads the row's fields. -/
structure OpcodeRow where
  mask : Word
  pattern : Word
  build : Word → Instr

/-- Does the word select the row? -/
def OpcodeRow.selects (r : OpcodeRow) (w : Word) : Bool := w &&& r.mask == r.pattern

/-- Families 0 to 7 (rows 1 to 9 of R48). -/
def opcodeRowsLow : List OpcodeRow := [
  ⟨0xFFFF, 0x00E0, fun _ => .cls⟩,
  ⟨0xFFFF, 0x00EE, fun _ => .ret⟩,
  ⟨0xF000, 0x1000, fun w => .jp (nnnField w)⟩,
  ⟨0xF000, 0x2000, fun w => .call (nnnField w)⟩,
  ⟨0xF000, 0x3000, fun w => .seVxNn (xField w) (nnField w)⟩,
  ⟨0xF000, 0x4000, fun w => .sneVxNn (xField w) (nnField w)⟩,
  ⟨0xF00F, 0x5000, fun w => .seVxVy (xField w) (yField w)⟩,
  ⟨0xF000, 0x6000, fun w => .ldVxNn (xField w) (nnField w)⟩,
  ⟨0xF000, 0x7000, fun w => .addVxNn (xField w) (nnField w)⟩]

/-- Families 8 and 9 (rows 10 to 19 of R48). -/
def opcodeRowsAlu : List OpcodeRow := [
  ⟨0xF00F, 0x8000, fun w => .ldVxVy (xField w) (yField w)⟩,
  ⟨0xF00F, 0x8001, fun w => .orVxVy (xField w) (yField w)⟩,
  ⟨0xF00F, 0x8002, fun w => .andVxVy (xField w) (yField w)⟩,
  ⟨0xF00F, 0x8003, fun w => .xorVxVy (xField w) (yField w)⟩,
  ⟨0xF00F, 0x8004, fun w => .addVxVy (xField w) (yField w)⟩,
  ⟨0xF00F, 0x8005, fun w => .sub (xField w) (yField w)⟩,
  ⟨0xF00F, 0x8006, fun w => .shr (xField w) (yField w)⟩,
  ⟨0xF00F, 0x8007, fun w => .subn (xField w) (yField w)⟩,
  ⟨0xF00F, 0x800E, fun w => .shl (xField w) (yField w)⟩,
  ⟨0xF00F, 0x9000, fun w => .sneVxVy (xField w) (yField w)⟩]

/-- Families A to F (rows 20 to 34 of R48). -/
def opcodeRowsHigh : List OpcodeRow := [
  ⟨0xF000, 0xA000, fun w => .ldINnn (nnnField w)⟩,
  ⟨0xF000, 0xB000, fun w => .jpV0Nnn (nnnField w)⟩,
  ⟨0xF000, 0xC000, fun w => .rnd (xField w) (nnField w)⟩,
  ⟨0xF000, 0xD000, fun w => .drw (xField w) (yField w) (nField w)⟩,
  ⟨0xF0FF, 0xE09E, fun w => .skp (xField w)⟩,
  ⟨0xF0FF, 0xE0A1, fun w => .sknp (xField w)⟩,
  ⟨0xF0FF, 0xF007, fun w => .ldVxDt (xField w)⟩,
  ⟨0xF0FF, 0xF00A, fun w => .ldVxK (xField w)⟩,
  ⟨0xF0FF, 0xF015, fun w => .ldDtVx (xField w)⟩,
  ⟨0xF0FF, 0xF018, fun w => .ldStVx (xField w)⟩,
  ⟨0xF0FF, 0xF01E, fun w => .addIVx (xField w)⟩,
  ⟨0xF0FF, 0xF029, fun w => .ldFVx (xField w)⟩,
  ⟨0xF0FF, 0xF033, fun w => .ldBVx (xField w)⟩,
  ⟨0xF0FF, 0xF055, fun w => .ldMemVx (xField w)⟩,
  ⟨0xF0FF, 0xF065, fun w => .ldVxMem (xField w)⟩]

/-- The 34 rows of R48, in its order. -/
def opcodeRows : List OpcodeRow := opcodeRowsLow ++ opcodeRowsAlu ++ opcodeRowsHigh

/-- Why bytes are no instruction. -/
inductive DecodeError where
  /-- Fewer than the two bytes every instruction has (R45). -/
  | tooShort
  /-- The word matches no row of R48: an unrecognized word (R49, R50). -/
  | unrecognized (w : Word)
  deriving DecidableEq, Repr

/-- The instruction a 16-bit word selects (R48): the first, and only, row it matches. -/
def decodeWord (w : Word) : Except DecodeError Instr :=
  match opcodeRows.find? (fun r => r.selects w) with
  | some r => .ok (r.build w)
  | none => .error (.unrecognized w)

/-- The 16-bit word of two consecutive bytes, the one at the lower address being bits 15:8 (R34, R45). -/
def wordOfBytes (hi lo : Byte) : Word := hi ++ lo

/-- Decode the first instruction of a byte sequence; the rest is returned with it (R45). -/
def decode : List Byte → Except DecodeError (Instr × List Byte)
  | hi :: lo :: rest => (decodeWord (wordOfBytes hi lo)).map (fun i => (i, rest))
  | _ => .error .tooShort

/-- The two bytes of a word as memory holds them, bits 15:8 first (R34). -/
def bytesOfWord (w : Word) : List Byte := [w.extractLsb' 8 8, w.extractLsb' 0 8]

/-- The bytes of an instruction whose bits are `w`, numbered as spec/opcode_table.json numbers them: every
instruction is one 16-bit word (R45), and bits above `nbits` are 0. -/
def tableBytes (nbits w : Nat) : List Byte := bytesOfWord (BitVec.ofNat 16 (w % 2 ^ nbits))

/-- The instruction this decoder reads from an instruction whose bits are `w`. -/
def decodeTableWord (nbits w : Nat) : Option Instr :=
  match decode (tableBytes nbits w) with
  | .ok (i, _) => some i
  | .error _ => none

/-- R50's ambiguous-decode class: the words `0x0nE0`, `0x0nEE`, `5XYn`, `9XYn` with `n` in 1..15, on which the
prose and the table of the source can be read to disagree. They are unrecognized words. -/
def ambiguousWord (w : Word) : Bool :=
  (opField w == 0 && w.extractLsb' 8 4 != 0 && (nnField w == 0xE0 || nnField w == 0xEE))
    || ((opField w == 5 || opField w == 9) && nField w != 0)

/-! ## The encoder: the six formats of R46 and the literal digits of R48 -/

/-- A register index as its 4-bit field (R46). -/
def regField (r : Reg) : Nibble := BitVec.ofFin r

/-- Format `NNN`: `op`, then the 12-bit immediate (R46). -/
def formatNNN (op : Nibble) (nnn : Addr12) : Word := op ++ nnn

/-- Format `XNN`: `op`, `X`, then the 8-bit immediate (R46). -/
def formatXNN (op : Nibble) (x : Reg) (nn : Byte) : Word := op ++ regField x ++ nn

/-- Formats `XY` and `XYN`: `op`, `X`, `Y`, then a literal or the row count (R46). -/
def formatXYN (op : Nibble) (x y : Reg) (n : Nibble) : Word := op ++ regField x ++ regField y ++ n

/-- Format `X`: `op`, `X`, then a literal low byte (R46). -/
def formatX (op : Nibble) (x : Reg) (ff : Byte) : Word := op ++ regField x ++ ff

/-- The word of an instruction (R46, R48). -/
def encode : Instr → Word
  | .cls => 0x00E0
  | .ret => 0x00EE
  | .jp nnn => formatNNN 0x1 nnn
  | .call nnn => formatNNN 0x2 nnn
  | .seVxNn x nn => formatXNN 0x3 x nn
  | .sneVxNn x nn => formatXNN 0x4 x nn
  | .seVxVy x y => formatXYN 0x5 x y 0x0
  | .ldVxNn x nn => formatXNN 0x6 x nn
  | .addVxNn x nn => formatXNN 0x7 x nn
  | .ldVxVy x y => formatXYN 0x8 x y 0x0
  | .orVxVy x y => formatXYN 0x8 x y 0x1
  | .andVxVy x y => formatXYN 0x8 x y 0x2
  | .xorVxVy x y => formatXYN 0x8 x y 0x3
  | .addVxVy x y => formatXYN 0x8 x y 0x4
  | .sub x y => formatXYN 0x8 x y 0x5
  | .shr x y => formatXYN 0x8 x y 0x6
  | .subn x y => formatXYN 0x8 x y 0x7
  | .shl x y => formatXYN 0x8 x y 0xE
  | .sneVxVy x y => formatXYN 0x9 x y 0x0
  | .ldINnn nnn => formatNNN 0xA nnn
  | .jpV0Nnn nnn => formatNNN 0xB nnn
  | .rnd x nn => formatXNN 0xC x nn
  | .drw x y n => formatXYN 0xD x y n
  | .skp x => formatX 0xE x 0x9E
  | .sknp x => formatX 0xE x 0xA1
  | .ldVxDt x => formatX 0xF x 0x07
  | .ldVxK x => formatX 0xF x 0x0A
  | .ldDtVx x => formatX 0xF x 0x15
  | .ldStVx x => formatX 0xF x 0x18
  | .addIVx x => formatX 0xF x 0x1E
  | .ldFVx x => formatX 0xF x 0x29
  | .ldBVx x => formatX 0xF x 0x33
  | .ldMemVx x => formatX 0xF x 0x55
  | .ldVxMem x => formatX 0xF x 0x65

/-- The two bytes of an instruction as memory holds them (R34, R45). -/
def encodeBytes (i : Instr) : List Byte := bytesOfWord (encode i)

/-! ## The assembler (R52) -/

/-- A register number of a line as an index; lines are checked by `AsmLine.wf` first. -/
def asmReg (k : Nat) : Reg := Fin.ofNat 16 k

/-- The instruction of a line whose mnemonic and operand shapes are those of a row, the numbers taken at
their field's width. -/
def asmInstr (l : AsmLine) : Option Instr :=
  match l.mnemonic, l.operands with
  | .cls, [] => some .cls
  | .ret, [] => some .ret
  | .jp, [.num a] => some (.jp (BitVec.ofNat 12 a))
  | .jp, [.v _, .num a] => some (.jpV0Nnn (BitVec.ofNat 12 a))
  | .call, [.num a] => some (.call (BitVec.ofNat 12 a))
  | .se, [.v x, .num k] => some (.seVxNn (asmReg x) (BitVec.ofNat 8 k))
  | .se, [.v x, .v y] => some (.seVxVy (asmReg x) (asmReg y))
  | .sne, [.v x, .num k] => some (.sneVxNn (asmReg x) (BitVec.ofNat 8 k))
  | .sne, [.v x, .v y] => some (.sneVxVy (asmReg x) (asmReg y))
  | .ld, [.v x, .num k] => some (.ldVxNn (asmReg x) (BitVec.ofNat 8 k))
  | .ld, [.v x, .v y] => some (.ldVxVy (asmReg x) (asmReg y))
  | .ld, [.v x, .dt] => some (.ldVxDt (asmReg x))
  | .ld, [.v x, .key] => some (.ldVxK (asmReg x))
  | .ld, [.v x, .atI] => some (.ldVxMem (asmReg x))
  | .ld, [.i, .num a] => some (.ldINnn (BitVec.ofNat 12 a))
  | .ld, [.dt, .v x] => some (.ldDtVx (asmReg x))
  | .ld, [.st, .v x] => some (.ldStVx (asmReg x))
  | .ld, [.font, .v x] => some (.ldFVx (asmReg x))
  | .ld, [.bcd, .v x] => some (.ldBVx (asmReg x))
  | .ld, [.atI, .v x] => some (.ldMemVx (asmReg x))
  | .add, [.v x, .num k] => some (.addVxNn (asmReg x) (BitVec.ofNat 8 k))
  | .add, [.v x, .v y] => some (.addVxVy (asmReg x) (asmReg y))
  | .add, [.i, .v x] => some (.addIVx (asmReg x))
  | .or, [.v x, .v y] => some (.orVxVy (asmReg x) (asmReg y))
  | .and, [.v x, .v y] => some (.andVxVy (asmReg x) (asmReg y))
  | .xor, [.v x, .v y] => some (.xorVxVy (asmReg x) (asmReg y))
  | .sub, [.v x, .v y] => some (.sub (asmReg x) (asmReg y))
  | .subn, [.v x, .v y] => some (.subn (asmReg x) (asmReg y))
  | .shr, [.v x] => some (.shr (asmReg x) 0)
  | .shl, [.v x] => some (.shl (asmReg x) 0)
  | .rnd, [.v x, .num k] => some (.rnd (asmReg x) (BitVec.ofNat 8 k))
  | .drw, [.v x, .v y, .num n] => some (.drw (asmReg x) (asmReg y) (BitVec.ofNat 4 n))
  | .skp, [.v x] => some (.skp (asmReg x))
  | .sknp, [.v x] => some (.sknp (asmReg x))
  | _, _ => none

/-- The instruction a line of `i` assembles to: `i` itself, with `Y` = 0 where the line names no `Y` (R52). -/
def Instr.withZeroY : Instr → Instr
  | .shr x _ => .shr x 0
  | .shl x _ => .shl x 0
  | i => i

/-- Assemble a line: refused unless it is well formed; `SHR` and `SHL` assemble with `Y` = 0 (R52). -/
def assemble (l : AsmLine) : Option Instr := if l.wf then asmInstr l else none

end Sys2Proof
end

