-- ==== Sys2Proof/Config.lean ====
section
/-! DEFINITION. The constants of the machine (spec 00_scope.md R3: "C8 fixes every size; none is left to
the implementation") and its one free value, the random byte source (R24). The other open parameter,
`GLYPH_TABLE` (R23), is `glyphTable` in Machine/Memory.lean. -/

namespace Sys2Proof.Config

/-- `MEM_SIZE`: 4096 bytes, addresses 0x000 to 0xFFF (R3, R30). -/
abbrev memSize : Nat := 4096

/-- `PROG_BASE`: where `Load` puts a program and where the first fetch is made (R3, R31). -/
abbrev progBase : Nat := 0x200

/-- `PROG_MAX`: the longest program image, 4096 - 512 bytes (R3, R42). -/
abbrev progMax : Nat := 3584

/-- The `n`-th byte of the "uniform random byte source" (R24, R84; 92_eei_decisions.md D17). A FREE VALUE
with no body: a statement about CXNN holds whatever these bytes are. DESIGN CHOICE, safe (log entry 1). -/
opaque randomByte : Nat → Byte

end Sys2Proof.Config
end

