-- ==== Sys2Proof/Machine/Memory.lean ====
section
/-! DEFINITION. The memory (spec 20_memory.md R30, R31; 10_state.md R20, R22, R23): 4096 bytes held as a list of
(address, byte) cells in one canonical form, addresses strictly rising and no cell equal to what an
unlisted address reads as, which is that address's reset contents. -/

namespace Sys2Proof.Machine

/-- The memory of the machine: its listed cells. -/
abbrev Mem := List Host.Cell

/-- `GLYPH_TABLE` (R23): 16 glyphs of 5 bytes, top row first. The source gives no byte; these are the spec's
default, the standard CHIP-8 font. PRESUMED, unsafe (log entry 3). -/
def glyphTable : List Byte :=
  [0xF0, 0x90, 0x90, 0x90, 0xF0] ++ [0x20, 0x60, 0x20, 0x20, 0x70] ++
  [0xF0, 0x10, 0xF0, 0x80, 0xF0] ++ [0xF0, 0x10, 0xF0, 0x10, 0xF0] ++
  [0x90, 0x90, 0xF0, 0x10, 0x10] ++ [0xF0, 0x80, 0xF0, 0x10, 0xF0] ++
  [0xF0, 0x80, 0xF0, 0x90, 0xF0] ++ [0xF0, 0x10, 0x20, 0x40, 0x40] ++
  [0xF0, 0x90, 0xF0, 0x90, 0xF0] ++ [0xF0, 0x90, 0xF0, 0x10, 0xF0] ++
  [0xF0, 0x90, 0xF0, 0x90, 0x90] ++ [0xE0, 0x90, 0xE0, 0x90, 0xE0] ++
  [0xF0, 0x80, 0x80, 0x80, 0xF0] ++ [0xE0, 0x90, 0x90, 0x90, 0xE0] ++
  [0xF0, 0x80, 0xF0, 0x80, 0xF0] ++ [0xF0, 0x80, 0xF0, 0x80, 0x80]

/-- What an address that no cell lists reads as: its reset contents (R22), the glyph table at
0x000..0x04F and 0 everywhere else. -/
def resetByte (a : Nat) : Byte := glyphTable.getD a 0

/-- The byte at an address. -/
def Mem.read : Mem → Nat → Byte
  | [], a => resetByte a
  | (b, u) :: rest, a => if b = a then u else Mem.read rest a

/-- The memory with no cell for `a`: the address reads as its reset contents. -/
def Mem.forget (m : Mem) (a : Nat) : Mem := m.filter (fun c => c.1 != a)

/-- The memory with a new cell for `a`, placed in address order. -/
def Mem.insertCell : Mem → Nat → Byte → Mem
  | [], a, v => [(a, v)]
  | (b, u) :: rest, a, v => if a < b then (a, v) :: (b, u) :: rest else (b, u) :: Mem.insertCell rest a v

/-- Store a byte, keeping the canonical form: a byte equal to the address's reset contents is not listed. -/
def Mem.write (m : Mem) (a : Nat) (v : Byte) : Mem :=
  if v = resetByte a then m.forget a else (m.forget a).insertCell a v

/-- Store bytes at `a`, `a + 1`, ..., in ascending order (R35). -/
def Mem.writeBytes : Mem → Nat → List Byte → Mem
  | m, _, [] => m
  | m, a, v :: vs => Mem.writeBytes (m.write a v) (a + 1) vs

/-- The `n` bytes from `a` upward, in ascending order (R35). -/
def Mem.readBytes (m : Mem) : Nat → Nat → List Byte
  | _, 0 => []
  | a, n + 1 => m.read a :: Mem.readBytes m (a + 1) n

/-- The canonical form, and that every cell is in the address space (R30). -/
abbrev Mem.wf (m : Mem) : Prop :=
  m.Pairwise (fun c d => c.1 < d.1) ∧ ∀ c ∈ m, c.1 < Config.memSize ∧ c.2 ≠ resetByte c.1

end Sys2Proof.Machine
end

