-- ==== Sys2Proof/Machine/State.lean ====
section
/-! DEFINITION. The state of the machine (spec 10_state.md R10 to R21), as plain data, and its reset value (R22). -/

namespace Sys2Proof.Machine

/-- `run` (R19). -/
inductive RunState where
  | running
  /-- A fatal fault has stopped the machine for good (R60, R112). -/
  | faulted
  deriving DecidableEq, Repr

/-- `fault_cause` (R19, R110). -/
inductive FaultCause where
  /-- The reset value 0: nothing has faulted (R22; log entry 5). -/
  | noFault
  /-- Code 1: the fetch of a step with `pc + 1 > 0xFFF` (R56). -/
  | fetchBounds
  /-- Code 2: FX33, FX55, FX65 or DXYN reaching past 0xFFF (R32, R33). -/
  | dataBounds
  /-- Code 3: 2NNN with `SP = 16` (R66). -/
  | stackOverflow
  /-- Code 4: 00EE with `SP = 0` (R64). -/
  | stackUnderflow
  /-- Code 5: a set sprite bit of DXYN outside the framebuffer (R96). -/
  | fbRange
  /-- Code 6: EX9E or EXA1 with `V[X] > 15` (R98). -/
  | keyRange
  deriving DecidableEq, Repr

/-- The codes of R110; 0 is the reset value of the record. -/
def FaultCause.code : FaultCause → Nat
  | .noFault => 0
  | .fetchBounds => 1
  | .dataBounds => 2
  | .stackOverflow => 3
  | .stackUnderflow => 4
  | .fbRange => 5
  | .keyRange => 6

/-- The framebuffer (R16): 32 rows, top first, of 64 one-bit pixels, left first; `true` is on. -/
abbrev Framebuffer := Vector (Vector Bool 64) 32

/-- The whole state of the core (R21). -/
structure State where
  /-- `V[0x0]`..`V[0xF]` (R10); `V[0xF]` doubles as the flag output (R11). -/
  v : Vector Byte 16
  /-- The address register `I` (R12). -/
  iReg : Word
  /-- The program counter (R13). -/
  pc : Word
  /-- The stack pointer `SP`, 0..16: how many entries are in use (R14). -/
  sp : Fin 17
  /-- `stack[0]`..`stack[15]`, return addresses (R14). -/
  stack : Vector Word 16
  /-- The delay timer `DT` (R15). -/
  dt : Byte
  /-- The sound timer `ST` (R15). -/
  st : Byte
  /-- The framebuffer `FB[x,y]` (R16). -/
  fb : Framebuffer
  /-- The key states `K[0]`..`K[15]`; `true` is down (R17). -/
  keys : Vector Bool 16
  /-- The sticky redraw flag (R18). -/
  redraw : Bool
  /-- The run state (R19). -/
  run : RunState
  /-- The fault record: the cause (R19). -/
  faultCause : FaultCause
  /-- The fault record: the `pc` of the step that faulted (R19). -/
  faultPc : Word
  /-- The fault record: the instruction word of that step, 0 for `FETCH_BOUNDS` (R19). -/
  faultWord : Word
  /-- The memory `mem[0x000]`..`mem[0xFFF]` (R20). -/
  mem : Mem
  /-- The MODEL's own field, not the spec's: how many random bytes CXNN has drawn, the index of the next free
  value `Config.randomByte` (R24; DESIGN CHOICE, safe, log entry 1). -/
  draws : Nat
  deriving DecidableEq, Repr

/-- Why a step could stop outside the state space: never. Every fatal fault of the spec has a described entry
(R111) and is therefore a NEXT state with `run = faulted`; no meaning and no step raises a host-level fault,
so this type has no constructor (DEDUCED, safe, log entry 4). -/
inductive Fault where
  deriving DecidableEq, Repr

/-- What is refused by name. No instruction and no step is refused; the last three are refusals of HOST
actions that break the host's contract. -/
inductive Refusal where
  /-- `exec` on an instruction that has no meaning yet. Raised by nothing here. Safe. -/
  | notModelled (mnemonic : String)
  /-- `Load` after a step, a second `Load`, one on a faulted machine, or one of more than 3584 bytes (R42).
  Raised by the host action. Safe. -/
  | loadContract
  /-- `KeySet` with a code above 15 (R26). Raised by the host action. Safe. -/
  | keyCode
  /-- A pixel query outside 64x32 (R25). Raised by the host's read port. Safe. -/
  | pixelRange
  deriving DecidableEq, Repr

/-- What executing an instruction, or a step, answers. -/
abbrev Out := Host.Outcome State Fault Refusal

/-- The machine right after reset (R22, R120): `pc` = 0x200, everything else 0; no memory cell is listed, so
every address reads as its reset contents. -/
def State.reset : State where
  v := Vector.replicate 16 0
  iReg := 0
  pc := 0x200
  sp := 0
  stack := Vector.replicate 16 0
  dt := 0
  st := 0
  fb := Vector.replicate 32 (Vector.replicate 64 false)
  keys := Vector.replicate 16 false
  redraw := false
  run := .running
  faultCause := .noFault
  faultPc := 0
  faultWord := 0
  mem := []
  draws := 0

end Sys2Proof.Machine
end

