-- ==== Sys2Proof/Machine/Flags.lean ====
section
/-! DEFINITION. The flag computations (spec 10_state.md R11; 42_alu.md R79 to R83; 44_display.md R95). Every flag is
a truth value that overwrites the whole of `V[0xF]` with 0 or 1. -/

namespace Sys2Proof.Machine

/-- A flag as the byte written to `V[0xF]`: 0 or 1, never a raw mask (R11). -/
def flagByte (f : Bool) : Byte := if f then 1 else 0

/-- Carry out of `a + b`: the exact sum exceeds 255 (R79). -/
def addCarry (a b : Byte) : Bool := decide (a.toNat + b.toNat > 255)

/-- No borrow in `a - b`: 0 iff `a < b` (R80, R82). -/
def subNoBorrow (a b : Byte) : Bool := !decide (a.toNat < b.toNat)

/-- The bit a right shift by one loses: old bit 0 (R81). -/
def shrLostBit (a : Byte) : Bool := a.getLsbD 0

/-- The bit a left shift by one loses: old bit 7 (R83). -/
def shlLostBit (a : Byte) : Bool := a.getLsbD 7

end Sys2Proof.Machine
end

