-- ==== Sys2Proof/Machine/Operands.lean ====
section
/-! DEFINITION. The operand forms (spec 30_encoding.md R47; 00_scope.md R7, R8): general registers, immediates
zero-extended to 16 bits, the implicit offset `V[0]`, the base `I` with a small offset, key codes. -/

namespace Sys2Proof.Machine

/-- Read `V[r]` (R8, R10). -/
def State.reg (s : State) (r : Reg) : Byte := s.v[r.val]

/-- Write `V[r]` (R8, R10): no register is hardwired. -/
def State.setReg (s : State) (r : Reg) (b : Byte) : State := { s with v := s.v.set r.val b }

/-- `V[0xF]`, the flag output (R11). -/
def flagReg : Reg := 15

/-- `zext_16` of an 8-bit value (R7). -/
def zext8 (b : Byte) : Word := b.setWidth 16

/-- `zext_16` of the address immediate `NNN` (R47). -/
def zext12 (nnn : Addr12) : Word := nnn.setWidth 16

/-- The target of BNNN: `NNN + V[0]`, a 16-bit sum that is not reduced to 12 bits (R71). -/
def offsetTarget (s : State) (nnn : Addr12) : Word := zext12 nnn + zext8 (s.reg 0)

/-- The base address of a data access: the value of `I`, an exact number (R12, R32). -/
def baseAddr (s : State) : Nat := s.iReg.toNat

/-- The address of the glyph of a value: the whole 8-bit value times 5 (R88, D27). -/
def glyphAddr (b : Byte) : Word := zext8 b * 5

/-- The three decimal digits of a byte, hundreds first (R89). -/
def decimalDigits (b : Byte) : List Byte :=
  [BitVec.ofNat 8 (b.toNat / 100), BitVec.ofNat 8 (b.toNat / 10 % 10), BitVec.ofNat 8 (b.toNat % 10)]

/-- `V[0]`, ..., `V[X]`, the operands of FX55, lowest index first (R90). -/
def regsUpTo (s : State) (x : Reg) : List Byte := ((List.finRange 16).take (x.val + 1)).map s.reg

/-- Write bytes to `V[k]`, `V[k+1]`, ..., the results of FX65, lowest index first (R91). -/
def loadRegs : State → Nat → List Byte → State
  | s, _, [] => s
  | s, k, b :: bs => loadRegs (if h : k < 16 then s.setReg ⟨k, h⟩ b else s) (k + 1) bs

/-- The highest key code whose key is down (R101). -/
def highestKeyDown (s : State) : Option Reg := (List.finRange 16).reverse.find? (fun k => s.keys[k.val])

/-- A key code as a register value, 0..15 (R101). -/
def keyByte (k : Reg) : Byte := BitVec.ofNat 8 k.val

end Sys2Proof.Machine
end

