-- ==== Sys2Proof/Machine/Ops.lean ====
section
/-! DEFINITION. The shared operations: the program counter, the memory primitives, the stack, the framebuffer and
the sprite blit, the keys, fault entry, the timer phase. An operation that can fault answers
`Except FaultCause`, so that no write of a faulting step can survive it (spec 40_step_cycle.md R61). -/

namespace Sys2Proof.Machine

/-! ## The program counter (R13, R57, R63) -/

/-- `pc <- pc + 2`, the default increment (R57). -/
def State.advance (s : State) : State := { s with pc := s.pc + 2 }

/-- `pc <- t`, a jump (R65). -/
def State.jumpTo (s : State) (t : Word) : State := { s with pc := t }

/-- Skip: `pc <- pc + 4` when the condition holds, `pc <- pc + 2` when not; the skipped bytes are not
examined (R63). -/
def State.skipIf (s : State) (c : Bool) : State := { s with pc := s.pc + (if c then 4 else 2) }

/-! ## Memory (R32, R33, R35) -/

/-- May `n` consecutive bytes from `a` be accessed? None is always allowed (R93 for `N = 0`); else the last
address must be in 0..0xFFF (R32, R33). The address is an exact sum and never wraps. -/
def accessOk (a n : Nat) : Bool := n == 0 || decide (a + n ≤ Config.memSize)

/-- Read `n` consecutive bytes, all of them or a `DATA_BOUNDS` fault (R32, R35). `MemRead(a, 1)` is `n = 1`. -/
def memRead (s : State) (a n : Nat) : Except FaultCause (List Byte) :=
  if accessOk a n then .ok (s.mem.readBytes a n) else .error .dataBounds

/-- Store bytes at consecutive addresses, all of them or a `DATA_BOUNDS` fault with none stored (R33, D10).
`MemWrite(a, 1, v)` is the list `[v]`. -/
def memWrite (s : State) (a : Nat) (bs : List Byte) : Except FaultCause State :=
  if accessOk a bs.length then .ok { s with mem := s.mem.writeBytes a bs } else .error .dataBounds

/-! ## The call stack (R14, R64, R66) -/

/-- Push a return address: `stack[SP] <- a; SP <- SP + 1`, or `STACK_OVERFLOW` when `SP = 16` (R66). -/
def pushReturn (s : State) (a : Word) : Except FaultCause State :=
  if h : s.sp.val < 16 then .ok { s with stack := s.stack.set s.sp.val a, sp := ⟨s.sp.val + 1, Nat.succ_lt_succ h⟩ }
  else .error .stackOverflow

/-- Pop a return address: `SP <- SP - 1`, then `stack[SP]` is read and keeps its content, or
`STACK_UNDERFLOW` when `SP = 0` (R64, R14). -/
def popReturn (s : State) : Except FaultCause (State × Word) :=
  if h : s.sp.val = 0 then .error .stackUnderflow
  else .ok ({ s with sp := ⟨s.sp.val - 1, by omega⟩ }, s.stack[s.sp.val - 1])

/-! ## The framebuffer and the sprite unit (R16, R92 to R96) -/

/-- The pixel at column `x`, row `y`; the framebuffer has no pixel outside 64x32, and none is asked for. -/
def Framebuffer.pixel (fb : Framebuffer) (x y : Nat) : Bool :=
  if h : x < 64 ∧ y < 32 then (fb[y]'h.2)[x]'h.1 else false

/-- Write one pixel. -/
def Framebuffer.setPixel (fb : Framebuffer) (x y : Nat) (b : Bool) : Framebuffer :=
  if h : x < 64 ∧ y < 32 then fb.set y ((fb[y]'h.2).set x b h.1) h.2 else fb

/-- A framebuffer with every pixel 0 (R92). -/
def clearFramebuffer : Framebuffer := Vector.replicate 32 (Vector.replicate 64 false)

/-- The columns of a row byte whose bit is set, ascending: column `c` is bit `7 - c` (R94). -/
def setColumns (b : Byte) : List Nat := (List.range 8).filter (fun c => b.getLsbD (7 - c))

/-- The target pixels of a sprite, rows ascending and columns ascending, from row `y` down: only set bits have
one (R94). Coordinates are exact sums, never reduced (R96). -/
def spriteTargets (x0 : Nat) : Nat → List Byte → List (Nat × Nat)
  | _, [] => []
  | y, b :: bs => (setColumns b).map (fun c => (x0 + c, y)) ++ spriteTargets x0 (y + 1) bs

/-- Is a target pixel inside the framebuffer? (R96) -/
def inFramebuffer (p : Nat × Nat) : Bool := decide (p.1 < 64) && decide (p.2 < 32)

/-- One target of the blit: note a collision if the pixel is on, then toggle it (R94, R95). -/
def blitPixel (acc : Bool × Framebuffer) (p : Nat × Nat) : Bool × Framebuffer :=
  (acc.1 || acc.2.pixel p.1 p.2, acc.2.setPixel p.1 p.2 (!acc.2.pixel p.1 p.2))

/-- `Blit(FB, x0, y0, bytes)`: range-check every target first, then toggle each and report whether a set pixel
was turned off (R94, R95); `FB_RANGE` if any target is outside, with nothing drawn (R96, D9). -/
def blit (fb : Framebuffer) (x0 y0 : Nat) (bytes : List Byte) : Except FaultCause (Bool × Framebuffer) :=
  if (spriteTargets x0 y0 bytes).all inFramebuffer then .ok ((spriteTargets x0 y0 bytes).foldl blitPixel (false, fb))
  else .error .fbRange

/-- `FB <- FB'` and `redraw <- 1`, what every non-faulting 00E0 and DXYN does (R97). -/
def State.display (s : State) (fb : Framebuffer) : State := { s with fb := fb, redraw := true }

/-! ## The keys (R98) -/

/-- `KeyDown(k)` for the full 8-bit value of a register: `KEY_RANGE` above 15, never masked (R98, D11). -/
def keyDown (s : State) (k : Byte) : Except FaultCause Bool :=
  if h : k.toNat < 16 then .ok s.keys[k.toNat] else .error .keyRange

/-! ## The random byte (R24, R84) -/

/-- The random byte of this step, and the state in which the next draw is another one (D17). -/
def drawRandom (s : State) : Byte × State := (Config.randomByte s.draws, { s with draws := s.draws + 1 })

/-! ## Fault entry (R111) -/

/-- Take a fatal fault in the state before the step: the run state and the fault record are written and nothing
else is; `pc` stays at the faulting instruction and control goes nowhere (R111, R61). There is no
return from it (R112). -/
def raiseFault (c : FaultCause) (w : Word) (s : State) : State :=
  { s with run := .faulted, faultCause := c, faultPc := s.pc, faultWord := w }

/-- Complete the execute phase of instruction `i` begun in state `s`: its result, or the fault it raises taken
in `s`, recording the instruction's own word. -/
def complete (i : Instr) (s : State) : Except FaultCause State → Out
  | .ok t => .next t
  | .error c => .next (raiseFault c (encode i) s)

/-! ## The timer phase (R105) -/

/-- One tick of a countdown register: it saturates at 0 (R15, R105). -/
def tick (b : Byte) : Byte := if b = 0 then 0 else b - 1

/-- `TimerPhase()`: both timers tick (R105). -/
def timerPhase (s : State) : State := { s with dt := tick s.dt, st := tick s.st }

end Sys2Proof.Machine
end

