-- ==== Sys2Proof/Machine/Cycle.lean ====
section
/-! DEFINITION. The step cycle around the execute phase (spec 40_step_cycle.md R55 to R61): fetch, decode, execute,
timer phase; the unrecognized word (30_encoding.md R49); the diagnostic a step emits (60_exceptions.md R116). -/

namespace Sys2Proof.Machine

/-- Fetch (R56, R34): the word at `pc`, `pc + 1`, big-endian; `FETCH_BOUNDS` iff `pc + 1 > 0xFFF`. -/
def fetch (s : State) : Except FaultCause Word :=
  if s.pc.toNat + 1 > 0xFFF then .error .fetchBounds
  else .ok (wordOfBytes (s.mem.read s.pc.toNat) (s.mem.read (s.pc.toNat + 1)))

/-- The end of a step after its execute phase: the timer phase runs unless the instruction faulted (R58). -/
def finishStep (t : State) : State :=
  match t.run with
  | .running => timerPhase t
  | .faulted => t

/-- Apply a function to the next state of an outcome. -/
def mapNext (f : State → State) : Out → Out
  | .next t => .next (f t)
  | .fault r => .fault r
  | .refused r => .refused r

/-- `Step` (R55), given the execute phase: a faulted machine does not step (R60); a failed fetch faults with word
0 (R111); an unrecognized word advances `pc` by 2 (R49); the timer phase is last (R58). -/
def stepCycle (execute : Instr → State → Out) (s : State) : Out :=
  match s.run with
  | .faulted => .next s
  | .running =>
    match fetch s with
    | .error c => .next (raiseFault c 0 s)
    | .ok w =>
      match decodeWord w with
      | .ok i => mapNext finishStep (execute i s)
      | .error _ => .next (timerPhase s.advance)

/-- The diagnostic `Diag(addr, word)` the step from `s` emits, if any: exactly when it fetches an unrecognized
word. An output event, not state (R116, D18; log entry 7). -/
def diagEvent (s : State) : Option (Word × Word) :=
  match s.run, fetch s with
  | .running, .ok w =>
    match decodeWord w with
    | .ok _ => none
    | .error _ => some (s.pc, w)
  | _, _ => none

/-- Store an instruction's bytes at `pc`, where the next fetch reads; a byte that would lie past 0xFFF has no
place. Stands for the host's `Load` (log entry 9). -/
def placeAtPc (s : State) (bs : List Byte) : State :=
  { s with mem := s.mem.writeBytes s.pc.toNat (bs.take (Config.memSize - s.pc.toNat)) }

end Sys2Proof.Machine
end

