-- ==== Sys2Proof/Machine/Alu.lean ====
section
/-! DEFINITION. Register load and ALU (spec 42_alu.md): 6XNN, 7XNN, 8XY0 to 8XY7, 8XYE, CXNN. Operands are read from
the state before the step; the two writes of a flag-writing instruction stand in the order of its row, so
the later one stands when both aim at `V[0xF]` (R72, D6; log entry 12). -/

namespace Sys2Proof.Machine

/-- Write `V[x]` and advance: the shape of the instructions that write no flag. -/
def State.writeReg (s : State) (x : Reg) (b : Byte) : State := (s.setReg x b).advance

/-- Write the flag, then the result, then advance: 8XY5, 8XY6, 8XY7, 8XYE (R72). -/
def State.writeFlagThenReg (s : State) (x : Reg) (b : Byte) (f : Bool) : State :=
  ((s.setReg flagReg (flagByte f)).setReg x b).advance

/-- 6XNN `LD Vx, nn` (R73). -/
def execLdVxNn (x : Reg) (nn : Byte) (s : State) : Out := .next (s.writeReg x nn)

/-- 7XNN `ADD Vx, nn` (R74): 8-bit wraparound, no flag. -/
def execAddVxNn (x : Reg) (nn : Byte) (s : State) : Out := .next (s.writeReg x (s.reg x + nn))

/-- 8XY0 `LD Vx, Vy` (R75). -/
def execLdVxVy (x y : Reg) (s : State) : Out := .next (s.writeReg x (s.reg y))

/-- 8XY1 `OR Vx, Vy` (R76). -/
def execOrVxVy (x y : Reg) (s : State) : Out := .next (s.writeReg x (s.reg x ||| s.reg y))

/-- 8XY2 `AND Vx, Vy` (R77). -/
def execAndVxVy (x y : Reg) (s : State) : Out := .next (s.writeReg x (s.reg x &&& s.reg y))

/-- 8XY3 `XOR Vx, Vy` (R78). -/
def execXorVxVy (x y : Reg) (s : State) : Out := .next (s.writeReg x (s.reg x ^^^ s.reg y))

/-- 8XY4 `ADD Vx, Vy` (R79): the result first, the carry second. -/
def execAddVxVy (x y : Reg) (s : State) : Out :=
  .next (((s.setReg x (s.reg x + s.reg y)).setReg flagReg (flagByte (addCarry (s.reg x) (s.reg y)))).advance)

/-- 8XY5 `SUB Vx, Vy` (R80). -/
def execSub (x y : Reg) (s : State) : Out :=
  .next (s.writeFlagThenReg x (s.reg x - s.reg y) (subNoBorrow (s.reg x) (s.reg y)))

/-- 8XY6 `SHR Vx` (R81): the source is `V[x]`; `y` is ignored. -/
def execShr (x _y : Reg) (s : State) : Out :=
  .next (s.writeFlagThenReg x (s.reg x >>> 1) (shrLostBit (s.reg x)))

/-- 8XY7 `SUBN Vx, Vy` (R82). -/
def execSubn (x y : Reg) (s : State) : Out :=
  .next (s.writeFlagThenReg x (s.reg y - s.reg x) (subNoBorrow (s.reg y) (s.reg x)))

/-- 8XYE `SHL Vx` (R83): the source is `V[x]`; `y` is ignored. -/
def execShl (x _y : Reg) (s : State) : Out :=
  .next (s.writeFlagThenReg x (s.reg x <<< 1) (shlLostBit (s.reg x)))

/-- CXNN `RND Vx, nn` (R84): the random byte is a free value. -/
def execRnd (x : Reg) (nn : Byte) (s : State) : Out :=
  .next ((drawRandom s).2.writeReg x (nn &&& (drawRandom s).1))

end Sys2Proof.Machine
end

