-- ==== Sys2Proof/Machine/Control.lean ====
section
/-! DEFINITION. Control transfer (spec 41_control_flow.md): 00EE, 1NNN, 2NNN, 3XNN, 4XNN, 5XY0, 9XY0, BNNN. -/

namespace Sys2Proof.Machine

/-- 00EE `RET` (R64): pop into `pc`, with no increment added. -/
def execRet (s : State) : Out :=
  complete .ret s ((popReturn s).map (fun p => p.1.jumpTo p.2))

/-- 1NNN `JP nnn` (R65). -/
def execJp (nnn : Addr12) (s : State) : Out := .next (s.jumpTo (zext12 nnn))

/-- 2NNN `CALL nnn` (R66): the return address pushed is `pc + 2` (D4). -/
def execCall (nnn : Addr12) (s : State) : Out :=
  complete (.call nnn) s ((pushReturn s (s.pc + 2)).map (fun t => t.jumpTo (zext12 nnn)))

/-- 3XNN `SE Vx, nn` (R67). -/
def execSeVxNn (x : Reg) (nn : Byte) (s : State) : Out := .next (s.skipIf (s.reg x == nn))

/-- 4XNN `SNE Vx, nn` (R68). -/
def execSneVxNn (x : Reg) (nn : Byte) (s : State) : Out := .next (s.skipIf (s.reg x != nn))

/-- 5XY0 `SE Vx, Vy` (R69). -/
def execSeVxVy (x y : Reg) (s : State) : Out := .next (s.skipIf (s.reg x == s.reg y))

/-- 9XY0 `SNE Vx, Vy` (R70). -/
def execSneVxVy (x y : Reg) (s : State) : Out := .next (s.skipIf (s.reg x != s.reg y))

/-- BNNN `JP V0, nnn` (R71). -/
def execJpV0Nnn (nnn : Addr12) (s : State) : Out := .next (s.jumpTo (offsetTarget s nnn))

end Sys2Proof.Machine
end

