-- ==== Sys2Proof/Machine/Display.lean ====
section
/-! DEFINITION. Display (spec 44_display.md): 00E0, DXYN. -/

namespace Sys2Proof.Machine

/-- 00E0 `CLS` (R92). -/
def execCls (s : State) : Out := .next (s.display clearFramebuffer).advance

/-- DXYN `DRW Vx, Vy, n` (R93): the sprite bytes are gathered first (`DATA_BOUNDS`), then blitted (`FB_RANGE`);
coordinates are the full register values, read before the flag is written. -/
def execDrw (x y : Reg) (n : Nibble) (s : State) : Out :=
  complete (.drw x y n) s
    ((memRead s (baseAddr s) n.toNat).bind (fun bytes =>
      (blit s.fb (s.reg x).toNat (s.reg y).toNat bytes).map (fun p =>
        ((s.display p.2).setReg flagReg (flagByte p.1)).advance)))

end Sys2Proof.Machine
end

