-- ==== Sys2Proof/Machine/Index.lean ====
section
/-! DEFINITION. Address register and memory transfer (spec 43_index_memory.md): ANNN, FX1E, FX29, FX33, FX55, FX65. No
access changes `I` (D13). -/

namespace Sys2Proof.Machine

/-- `I <- a` and advance. -/
def State.writeI (s : State) (a : Word) : State := { s with iReg := a }.advance

/-- ANNN `LD I, nnn` (R86). -/
def execLdINnn (nnn : Addr12) (s : State) : Out := .next (s.writeI (zext12 nnn))

/-- FX1E `ADD I, Vx` (R87): 16-bit wraparound (D12), no flag. -/
def execAddIVx (x : Reg) (s : State) : Out := .next (s.writeI (s.iReg + zext8 (s.reg x)))

/-- FX29 `LD F, Vx` (R88). -/
def execLdFVx (x : Reg) (s : State) : Out := .next (s.writeI (glyphAddr (s.reg x)))

/-- FX33 `LD B, Vx` (R89). -/
def execLdBVx (x : Reg) (s : State) : Out :=
  complete (.ldBVx x) s ((memWrite s (baseAddr s) (decimalDigits (s.reg x))).map State.advance)

/-- FX55 `LD [I], Vx` (R90). -/
def execLdMemVx (x : Reg) (s : State) : Out :=
  complete (.ldMemVx x) s ((memWrite s (baseAddr s) (regsUpTo s x)).map State.advance)

/-- FX65 `LD Vx, [I]` (R91). -/
def execLdVxMem (x : Reg) (s : State) : Out :=
  complete (.ldVxMem x) s ((memRead s (baseAddr s) (x.val + 1)).map (fun bs => (loadRegs s 0 bs).advance))

end Sys2Proof.Machine
end

