-- ==== Sys2Proof/Machine/Keypad.lean ====
section
/-! DEFINITION. Keypad (spec 45_keypad.md): EX9E, EXA1, FX0A. -/

namespace Sys2Proof.Machine

/-- EX9E `SKP Vx` (R99). -/
def execSkp (x : Reg) (s : State) : Out :=
  complete (.skp x) s ((keyDown s (s.reg x)).map (fun down => s.skipIf down))

/-- EXA1 `SKNP Vx` (R100). -/
def execSknp (x : Reg) (s : State) : Out :=
  complete (.sknp x) s ((keyDown s (s.reg x)).map (fun down => s.skipIf (!down)))

/-- FX0A `LD Vx, K` (R101): the highest key down is stored; with none down nothing changes, `pc` included, and
the same word is fetched again by the next step. -/
def execLdVxK (x : Reg) (s : State) : Out :=
  match highestKeyDown s with
  | some k => .next (s.setReg x (keyByte k)).advance
  | none => .next s

end Sys2Proof.Machine
end

