-- ==== Sys2Proof/Machine/Timers.lean ====
section
/-! DEFINITION. Timers (spec 46_timers.md): FX07, FX15, FX18. The timer phase that follows each is `timerPhase`
(Machine/Ops.lean), run by the step cycle (R105). -/

namespace Sys2Proof.Machine

/-- FX07 `LD Vx, DT` (R102): the value before this step's decrement. -/
def execLdVxDt (x : Reg) (s : State) : Out := .next (s.setReg x s.dt).advance

/-- FX15 `LD DT, Vx` (R103). -/
def execLdDtVx (x : Reg) (s : State) : Out := .next { s with dt := s.reg x }.advance

/-- FX18 `LD ST, Vx` (R104). -/
def execLdStVx (x : Reg) (s : State) : Out := .next { s with st := s.reg x }.advance

end Sys2Proof.Machine
end

