-- ==== Sys2Proof/Machine/Step.lean ====
section
/-! DEFINITION. One step of the machine (spec 40_step_cycle.md R55): the cycle of Machine/Cycle.lean around `exec`. -/

namespace Sys2Proof.Machine

/-- One `step` event (R55). -/
def step (s : State) : Host.Outcome State Fault Refusal := stepCycle exec s

/-- `s` with the instruction of those bits stored where `step` fetches its next instruction. -/
def State.withFetchWord (s : State) (nbits w : Nat) : State := placeAtPc s (tableBytes nbits w)

end Sys2Proof.Machine
end

