-- ==== Sys2Proof/Machine/HostActions.lean ====
section
/-! DEFINITION. What the host can do between steps (spec 10_state.md R24 to R26; 20_memory.md R42;
70_reset_and_hazards.md R120, R121): `Reset`, `Load`, `KeySet`, `RedrawClear`, `step`, and the reads. -/

namespace Sys2Proof.Machine

/-- The core together with what the contract of `Load` asks about the past (R42): nothing of this is state of
the core (R21; DESIGN CHOICE, safe, log entry 8). -/
structure Session where
  core : State
  /-- Has a step been taken since reset? -/
  stepped : Bool
  /-- Has `Load` been performed since reset? -/
  loaded : Bool
  deriving DecidableEq, Repr

/-- The host's actions (R26). -/
inductive HostAction where
  /-- `Reset` (R120), over the 80 bytes of `GLYPH_TABLE` (R23). -/
  | reset (glyphs : Vector Byte 80)
  /-- `Load(bytes)` (R42). -/
  | load (bytes : List Byte)
  /-- `KeySet(code, pressed)` (R26). -/
  | keySet (code : Nat) (pressed : Bool)
  /-- `RedrawClear` (R26). -/
  | redrawClear
  /-- `step` (R55). -/
  | step
  deriving DecidableEq, Repr

/-- The reset state over a given `GLYPH_TABLE` (R22, R23): "the model should take it as an
argument". `State.reset` is this for the default table. -/
def resetWith (glyphs : Vector Byte 80) : State :=
  { State.reset with mem := State.reset.mem.writeBytes 0 glyphs.toList }

/-- The precondition of `Load` (R42). -/
def Session.mayLoad (u : Session) (bytes : List Byte) : Bool :=
  decide (u.core.run = .running) && !u.stepped && !u.loaded && decide (bytes.length ≤ Config.progMax)

/-- The effect of `Load` on the core: the bytes are copied verbatim from 0x200 up, and nothing else
changes (R42). -/
def loadProgram (s : State) (bytes : List Byte) : State :=
  { s with mem := s.mem.writeBytes Config.progBase bytes }

/-- `K[code] <- pressed`, nothing else (R26). -/
def setKey (s : State) (k : Reg) (pressed : Bool) : State := { s with keys := s.keys.set k.val pressed }

/-- `redraw <- 0` (R26). -/
def clearRedraw (s : State) : State := { s with redraw := false }

/-- One action of the host, refused by name where it breaks the host's contract (R26, R42, D21). A reset keeps the
model's own draw counter, so the bytes drawn after it are other free values (log entry 1). -/
def Session.act (u : Session) : HostAction → Host.Outcome Session Fault Refusal
  | .reset glyphs =>
    .next { core := { resetWith glyphs with draws := u.core.draws }, stepped := false, loaded := false }
  | .load bytes =>
    if u.mayLoad bytes then .next { u with core := loadProgram u.core bytes, loaded := true }
    else .refused .loadContract
  | .keySet code pressed =>
    if h : code < 16 then .next { u with core := setKey u.core ⟨code, h⟩ pressed } else .refused .keyCode
  | .redrawClear => .next { u with core := clearRedraw u.core }
  | .step =>
    match step u.core with
    | .next t => .next { u with core := t, stepped := true }
    | .fault r => .fault r
    | .refused r => .refused r

/-- The pixel read port (R25 b): no side effect; a query outside 64x32 has no defined answer and is refused. -/
def pixelQuery (s : State) (x y : Nat) : Except Refusal Bool :=
  if x < 64 ∧ y < 32 then .ok (s.fb.pixel x y) else .error .pixelRange

/-- `sound_on`, the level `ST > 0` between steps (R106). -/
def soundOn (s : State) : Bool := decide (s.st ≠ 0)

/-- What one `step` event gives the host beside the next state (R55, R25): the redraw flag after the step and at
most one diagnostic. -/
structure StepOutput where
  redraw : Bool
  diag : Option (Word × Word)
  deriving DecidableEq, Repr

/-- The outputs of the step from `s`, when it answers a next state. -/
def stepOutput (s : State) : Option StepOutput :=
  match step s with
  | .next t => some { redraw := t.redraw, diag := diagEvent s }
  | .fault _ => none
  | .refused _ => none

end Sys2Proof.Machine
end

