-- ==== Sys2Proof/Safety.lean ====
section
/-! DEFINITION. The terms claims about the machine are stated in: the invariants of its states, what a change of
state leaves alone (frames), the derived conditions the spec names (waiting, the conventional end), and the
spec's own tables of unrecognized words and fault conditions. -/

namespace Sys2Proof.Machine

/-! ## Invariants -/

/-- The memory is in canonical form and inside the address space (R30). -/
abbrev State.memCanonical (s : State) : Prop := s.mem.wf

/-- `pc` never exceeds the largest value an instruction can write, 0x10FE (R13), and no stack entry exceeds the
largest return address, 0x1000 (R66); so no `pc` arithmetic ever wraps (R85). -/
abbrev State.pcBounded (s : State) : Prop :=
  s.pc.toNat ≤ 0x10FE ∧ ∀ k : Fin 16, s.stack[k.val].toNat ≤ 0x1000

/-- The fault record says what happened: 0 while running (R22), and in a faulted machine a cause, the `pc` that
machine stopped at, and the word there, or 0 where the fetch itself failed (R19, R111). -/
def State.recordConsistent (s : State) : Prop :=
  match s.run with
  | .running => s.faultCause = .noFault ∧ s.faultPc = 0 ∧ s.faultWord = 0
  | .faulted => s.faultCause ≠ .noFault ∧ s.faultPc = s.pc ∧
      (s.faultCause = .fetchBounds → s.pc.toNat + 1 > 0xFFF ∧ s.faultWord = 0) ∧
      (s.faultCause ≠ .fetchBounds → fetch s = .ok s.faultWord)

/-- All three. -/
def State.Inv (s : State) : Prop := s.memCanonical ∧ s.pcBounded ∧ s.recordConsistent

/-! ## Which registers an instruction writes (R11) -/

/-- The six instructions that write `V[0xF]` as a side output (R11). -/
def writesFlag : Instr → Bool
  | .addVxVy _ _ | .sub _ _ | .shr _ _ | .subn _ _ | .shl _ _ | .drw _ _ _ => true
  | _ => false

/-- The destination registers an instruction names through its `X` field: `V[X]`, and `V[0]`..`V[X]` for FX65. -/
def destRegs : Instr → List Reg
  | .ldVxNn x _ | .addVxNn x _ | .rnd x _ => [x]
  | .ldVxVy x _ | .orVxVy x _ | .andVxVy x _ | .xorVxVy x _ => [x]
  | .addVxVy x _ | .sub x _ | .shr x _ | .subn x _ | .shl x _ => [x]
  | .ldVxDt x | .ldVxK x => [x]
  | .ldVxMem x => (List.finRange 16).filter (fun r => r ≤ x)
  | _ => []

/-! ## Frames -/

/-- What an instruction may change, as the spec names it: destination registers, the address register, the call
stack, a timer, the display, the bytes stored (first address, how many), and the model's draw counter. -/
structure Touched where
  regs : List Reg := []
  iReg : Bool := false
  stack : Bool := false
  dt : Bool := false
  st : Bool := false
  display : Bool := false
  stored : Nat × Nat := (0, 0)
  draws : Bool := false

/-- Everything but `pc` and what `c` names is the same in `t` as in `s`. The key states, the run state and the
fault record are never among what an instruction may name (R17, R19). -/
structure Frame (c : Touched) (s t : State) : Prop where
  regs : ∀ r, r ∉ c.regs → t.reg r = s.reg r
  iReg : c.iReg = false → t.iReg = s.iReg
  stack : c.stack = false → t.sp = s.sp ∧ t.stack = s.stack
  dt : c.dt = false → t.dt = s.dt
  st : c.st = false → t.st = s.st
  display : c.display = false → t.fb = s.fb ∧ t.redraw = s.redraw
  memory : ∀ a, ¬ (c.stored.1 ≤ a ∧ a < c.stored.1 + c.stored.2) → t.mem.read a = s.mem.read a
  draws : c.draws = false → t.draws = s.draws
  keys : t.keys = s.keys
  run : t.run = s.run
  record : t.faultCause = s.faultCause ∧ t.faultPc = s.faultPc ∧ t.faultWord = s.faultWord

/-! ## Derived conditions -/

/-- The word at `pc` and `pc + 1` (R34). -/
def State.wordAtPc (s : State) : Word := wordOfBytes (s.mem.read s.pc.toNat) (s.mem.read (s.pc.toNat + 1))

/-- A fetch from `pc` is in bounds (R56). -/
abbrev State.canFetch (s : State) : Prop := s.pc.toNat + 1 ≤ 0xFFF

/-- FX0A's waiting: the word at `pc` is FX0A and no key is down (R21 b, R101). -/
def State.waiting (s : State) : Prop :=
  s.run = .running ∧ s.canFetch ∧ (∃ x, decodeWord s.wordAtPc = .ok (.ldVxK x)) ∧ ∀ k : Reg, s.keys[k.val] = false

/-- The conventional end of a program: running, and the word at `pc` is `1NNN` with `NNN = pc` (R62, D25). -/
def State.atEnd (s : State) : Prop :=
  s.run = .running ∧ s.canFetch ∧ ∃ nnn : Addr12, decodeWord s.wordAtPc = .ok (.jp nnn) ∧ zext12 nnn = s.pc

/-- A safe state: nothing has faulted (R110, R60). -/
abbrev State.Safe (s : State) : Prop := s.run = .running

/-- `s` with a fatal fault taken in it: the run state and the fault record, nothing else (R61, R111). -/
def State.faultedWith (s : State) (c : FaultCause) (w : Word) : State :=
  { s with run := .faulted, faultCause := c, faultPc := s.pc, faultWord := w }

/-- `s` after one timer phase and nothing else: each timer lowered by one, not below 0 (R105). -/
def State.ticked (s : State) : State :=
  { s with dt := BitVec.ofNat 8 (s.dt.toNat - 1), st := BitVec.ofNat 8 (s.st.toNat - 1) }

/-- What the byte at `a` reads as once `bytes` have been stored from `base` upward over `m` (R35). -/
def byteAfterStore (m : Mem) (base : Nat) (bytes : List Byte) (a : Nat) : Byte :=
  if base ≤ a ∧ a < base + bytes.length then bytes.getD (a - base) 0 else m.read a

/-! ## The spec's tables, word for word -/

/-- R50's table of the unrecognized words, by family. -/
def unrecognizedByFamily (w : Word) : Prop :=
  (opField w = 0 ∧ w ≠ 0x00E0 ∧ w ≠ 0x00EE) ∨
  (opField w = 5 ∧ nField w ≠ 0) ∨
  (opField w = 8 ∧ nField w ∈ [0x8, 0x9, 0xA, 0xB, 0xC, 0xD, 0xF]) ∨
  (opField w = 9 ∧ nField w ≠ 0) ∨
  (opField w = 0xE ∧ nnField w ∉ [0x9E, 0xA1]) ∨
  (opField w = 0xF ∧ nnField w ∉ [0x07, 0x0A, 0x15, 0x18, 0x1E, 0x29, 0x33, 0x55, 0x65])

/-- R110's conditions for a step of a running machine, evaluated on the state before it. The cause 0 has none. -/
def faultCondition (s : State) : FaultCause → Prop
  | .noFault => False
  | .fetchBounds => s.pc.toNat + 1 > 0xFFF
  | .dataBounds => s.canFetch ∧
      ((s.wordAtPc &&& 0xF0FF = 0xF033 ∧ s.iReg.toNat + 2 > 0xFFF) ∨
       ((s.wordAtPc &&& 0xF0FF = 0xF055 ∨ s.wordAtPc &&& 0xF0FF = 0xF065) ∧
          s.iReg.toNat + (xField s.wordAtPc).val > 0xFFF) ∨
       (s.wordAtPc &&& 0xF000 = 0xD000 ∧ (nField s.wordAtPc).toNat > 0 ∧
          s.iReg.toNat + (nField s.wordAtPc).toNat - 1 > 0xFFF))
  | .stackOverflow => s.canFetch ∧ s.wordAtPc &&& 0xF000 = 0x2000 ∧ s.sp.val = 16
  | .stackUnderflow => s.canFetch ∧ s.wordAtPc = 0x00EE ∧ s.sp.val = 0
  | .fbRange => s.canFetch ∧ s.wordAtPc &&& 0xF000 = 0xD000 ∧
      ((nField s.wordAtPc).toNat = 0 ∨ s.iReg.toNat + (nField s.wordAtPc).toNat - 1 ≤ 0xFFF) ∧
      ∃ r c : Nat, r < (nField s.wordAtPc).toNat ∧ c < 8 ∧
        (s.mem.read (s.iReg.toNat + r)).getLsbD (7 - c) = true ∧
        ((s.reg (xField s.wordAtPc)).toNat + c > 63 ∨ (s.reg (yField s.wordAtPc)).toNat + r > 31)
  | .keyRange => s.canFetch ∧ (s.wordAtPc &&& 0xF0FF = 0xE09E ∨ s.wordAtPc &&& 0xF0FF = 0xE0A1) ∧
      (s.reg (xField s.wordAtPc)).toNat > 15

/-- The set sprite bits of a draw name the pixel `(x, y)`: bit `7 - c` of row `r`, with `x = x0 + c` and
`y = y0 + r` (R94). -/
def spriteHits (x0 y0 : Nat) (bytes : List Byte) (x y : Nat) : Prop :=
  ∃ r c : Nat, r < bytes.length ∧ c < 8 ∧ (bytes.getD r 0).getLsbD (7 - c) = true ∧ x = x0 + c ∧ y = y0 + r

end Sys2Proof.Machine
end

