-- ==== Sys2Proof/Certificates/Slice0/Obligations.lean ====
section
/-! DEFINITION. The statements for the provers, from the numbered rules of spec/. A statement marked DERIVED rests, in
the clause named, on a decision or an inference the spec marks as its own (92_eei_decisions.md D<n>) or on an
entry of the assumption log. -/

open Sys2Proof Sys2Proof.Machine

/-! ## Encoding -/

/-- Decode and encode agree (R34, R45, R46, R48): the bytes of every instruction decode to it, whatever follows. -/
def Obligations.DecodeOfEncode : Prop :=
  ∀ (i : Instr) (rest : List Byte), decode (encodeBytes i ++ rest) = .ok (i, rest)

/-- The other direction (R46, R48): an instruction read from a word encodes to that very word, so the decoder drops
no bit; the fault record's word rests on it (log entry 6). DERIVED: that every literal digit is checked, so that no
two words read as one instruction, rests on D7 (log entry 13). -/
def Obligations.EncodeOfDecodedWord : Prop :=
  ∀ (w : Word) (i : Instr), decodeWord w = .ok i → encode i = w

/-- R48's table, row by row: a word with `w and mask = match` decodes to the row's instruction, its operands read
from the fields of R46. Being implications for every word, they also say that no two rows overlap. DERIVED: that
literal digits are checked rests on D7 (log entry 13). -/
def Obligations.OpcodeMap : Prop :=
  ∀ w : Word,
    (w = 0x00E0 → decodeWord w = .ok .cls) ∧
    (w = 0x00EE → decodeWord w = .ok .ret) ∧
    (w &&& 0xF000 = 0x1000 → decodeWord w = .ok (.jp (nnnField w))) ∧
    (w &&& 0xF000 = 0x2000 → decodeWord w = .ok (.call (nnnField w))) ∧
    (w &&& 0xF000 = 0x3000 → decodeWord w = .ok (.seVxNn (xField w) (nnField w))) ∧
    (w &&& 0xF000 = 0x4000 → decodeWord w = .ok (.sneVxNn (xField w) (nnField w))) ∧
    (w &&& 0xF00F = 0x5000 → decodeWord w = .ok (.seVxVy (xField w) (yField w))) ∧
    (w &&& 0xF000 = 0x6000 → decodeWord w = .ok (.ldVxNn (xField w) (nnField w))) ∧
    (w &&& 0xF000 = 0x7000 → decodeWord w = .ok (.addVxNn (xField w) (nnField w))) ∧
    (w &&& 0xF00F = 0x8000 → decodeWord w = .ok (.ldVxVy (xField w) (yField w))) ∧
    (w &&& 0xF00F = 0x8001 → decodeWord w = .ok (.orVxVy (xField w) (yField w))) ∧
    (w &&& 0xF00F = 0x8002 → decodeWord w = .ok (.andVxVy (xField w) (yField w))) ∧
    (w &&& 0xF00F = 0x8003 → decodeWord w = .ok (.xorVxVy (xField w) (yField w))) ∧
    (w &&& 0xF00F = 0x8004 → decodeWord w = .ok (.addVxVy (xField w) (yField w))) ∧
    (w &&& 0xF00F = 0x8005 → decodeWord w = .ok (.sub (xField w) (yField w))) ∧
    (w &&& 0xF00F = 0x8006 → decodeWord w = .ok (.shr (xField w) (yField w))) ∧
    (w &&& 0xF00F = 0x8007 → decodeWord w = .ok (.subn (xField w) (yField w))) ∧
    (w &&& 0xF00F = 0x800E → decodeWord w = .ok (.shl (xField w) (yField w))) ∧
    (w &&& 0xF00F = 0x9000 → decodeWord w = .ok (.sneVxVy (xField w) (yField w))) ∧
    (w &&& 0xF000 = 0xA000 → decodeWord w = .ok (.ldINnn (nnnField w))) ∧
    (w &&& 0xF000 = 0xB000 → decodeWord w = .ok (.jpV0Nnn (nnnField w))) ∧
    (w &&& 0xF000 = 0xC000 → decodeWord w = .ok (.rnd (xField w) (nnField w))) ∧
    (w &&& 0xF000 = 0xD000 → decodeWord w = .ok (.drw (xField w) (yField w) (nField w))) ∧
    (w &&& 0xF0FF = 0xE09E → decodeWord w = .ok (.skp (xField w))) ∧
    (w &&& 0xF0FF = 0xE0A1 → decodeWord w = .ok (.sknp (xField w))) ∧
    (w &&& 0xF0FF = 0xF007 → decodeWord w = .ok (.ldVxDt (xField w))) ∧
    (w &&& 0xF0FF = 0xF00A → decodeWord w = .ok (.ldVxK (xField w))) ∧
    (w &&& 0xF0FF = 0xF015 → decodeWord w = .ok (.ldDtVx (xField w))) ∧
    (w &&& 0xF0FF = 0xF018 → decodeWord w = .ok (.ldStVx (xField w))) ∧
    (w &&& 0xF0FF = 0xF01E → decodeWord w = .ok (.addIVx (xField w))) ∧
    (w &&& 0xF0FF = 0xF029 → decodeWord w = .ok (.ldFVx (xField w))) ∧
    (w &&& 0xF0FF = 0xF033 → decodeWord w = .ok (.ldBVx (xField w))) ∧
    (w &&& 0xF0FF = 0xF055 → decodeWord w = .ok (.ldMemVx (xField w))) ∧
    (w &&& 0xF0FF = 0xF065 → decodeWord w = .ok (.ldVxMem (xField w)))

/-- R50's table: the decoder rejects exactly the words it lists, each by name, and the ambiguous-decode class is
among them. DERIVED: rests on D7 (log entry 13). -/
def Obligations.UnrecognizedWordsByFamily : Prop :=
  ∀ w : Word, (decodeWord w = .error (.unrecognized w) ↔ unrecognizedByFamily w) ∧
    (∀ e, decodeWord w = .error e → e = .unrecognized w) ∧
    (ambiguousWord w = true → decodeWord w = .error (.unrecognized w))

/-- R52: the line of every instruction assembles to it (`Y` = 0 for SHR and SHL), and exactly the well-formed lines
assemble. DERIVED: rests on D19 (log entry 19). -/
def Obligations.AssemblerAgreesWithInstructions : Prop :=
  (∀ i : Instr, assemble i.toAsm = some i.withZeroY) ∧ ∀ l : AsmLine, (assemble l).isSome = l.wf

/-- Words written out from R48 decode to the instructions they stand for: all eleven decode checks of
95_test_vectors.md (part 2.7), and five words more. -/
def Obligations.SampleWordsDecode : Prop :=
  decodeWord 0x00E0 = .ok .cls ∧ decodeWord 0x00EE = .ok .ret ∧ decodeWord 0x1ABC = .ok (.jp 0xABC) ∧
  decodeWord 0x4A7F = .ok (.sneVxNn 0xA 0x7F) ∧ decodeWord 0x8AB6 = .ok (.shr 0xA 0xB) ∧
  decodeWord 0x8FFE = .ok (.shl 0xF 0xF) ∧ decodeWord 0xD125 = .ok (.drw 1 2 5) ∧
  decodeWord 0xE29E = .ok (.skp 2) ∧ decodeWord 0xF00A = .ok (.ldVxK 0) ∧ decodeWord 0xFF65 = .ok (.ldVxMem 0xF) ∧
  decodeWord 0xF065 = .ok (.ldVxMem 0) ∧ decodeWord 0xE09E = .ok (.skp 0) ∧ decodeWord 0xD000 = .ok (.drw 0 0 0) ∧
  decodeWord 0xB000 = .ok (.jpV0Nnn 0) ∧ decodeWord 0x5AB0 = .ok (.seVxVy 0xA 0xB) ∧
  decodeWord 0x9AB0 = .ok (.sneVxVy 0xA 0xB)

/-! ## The step -/

/-- A step runs the decoded instruction (R55, R57): the next state is that of `exec`, followed by the timer phase
unless the instruction faulted. DERIVED: that the timer phase runs last rests on D14 (log entry 17), and that a fault
is a next state on D15 (log entry 4). -/
def Obligations.StepRunsDecodedInstruction : Prop :=
  ∀ (s : State) (i : Instr), s.run = .running → s.canFetch → decodeWord s.wordAtPc = .ok i →
    step s = match exec i s with
      | .next t => .next (if t.run = .faulted then t else timerPhase t)
      | .fault r => .fault r
      | .refused r => .refused r

/-- No step and no instruction stops outside the state space: both always answer a next state, the fatal faults
included. DERIVED: that a fault is a next state rests on D15 (log entry 4). -/
def Obligations.EveryStepAnswersNext : Prop :=
  (∀ (i : Instr) (s : State), ∃ t, exec i s = .next t ∧ (t.run = s.run ∨ t.run = .faulted)) ∧
  ∀ s : State, ∃ t, step s = .next t

/-- R60: a faulted machine changes nothing and emits nothing, however many steps are asked of it.
DERIVED: rests on D15 (log entry 4). -/
def Obligations.FaultedMachineIgnoresSteps : Prop :=
  ∀ s : State, s.run = .faulted → diagEvent s = none ∧ ∀ k : Nat, Sys2Proof.core.run k s = .next s

/-- R56: the fetch faults iff `pc >= 0xFFF`, with cause FETCH_BOUNDS and recorded word 0; in bounds, no step
records that cause. DERIVED: rests on D3 and D15 (log entries 10, 4). -/
def Obligations.FetchOutOfBoundsFaults : Prop :=
  ∀ s : State, s.run = .running →
    (s.pc.toNat ≥ 0xFFF → step s = .next (s.faultedWith .fetchBounds 0)) ∧
    (s.pc.toNat < 0xFFF → ∀ t, step s = .next t → t.run = .faulted → t.faultCause ≠ .fetchBounds)

/-- R49: a word that matches no row of R48 is no fault: it emits `Diag(pc, w)`, advances `pc` by 2 and lets the timer
phase run; nothing else changes. Conversely, only the fetch of such a word emits a diagnostic. DERIVED: the form of
the diagnostic is log entry 7 (D18), the phase's place D14 (log entry 17). -/
def Obligations.UnrecognizedWordIsSteppedOver : Prop :=
  (∀ s : State, s.run = .running → s.canFetch → (∀ r ∈ opcodeRows, r.selects s.wordAtPc = false) →
    step s = .next { s.ticked with pc := s.pc + 2 } ∧ diagEvent s = some (s.pc, s.wordAtPc)) ∧
  ∀ (s : State) (d : Word × Word), diagEvent s = some d →
    s.run = .running ∧ s.canFetch ∧ (∀ r ∈ opcodeRows, r.selects s.wordAtPc = false)

/-- R105, R58: after an instruction that did not fault, both timers are lowered by one, saturating at 0, and nothing
else is changed by the phase. DERIVED: that the phase runs last rests on D14 (log entry 17). -/
def Obligations.TimerPhaseRunsLast : Prop :=
  ∀ (s u : State) (i : Instr), s.run = .running → s.canFetch → decodeWord s.wordAtPc = .ok i →
    exec i s = .next u → u.run = .running → step s = .next u.ticked

/-- R105: every step that does not fault lowers each timer by one, saturating at 0, unless its word is the one that
sets that timer, which is lowered from the value set. DERIVED: rests on D14 (log entry 17). -/
def Obligations.TimersCountEveryStep : Prop :=
  ∀ s t : State, s.run = .running → step s = .next t → t.run = .running →
    t.dt.toNat = (if s.wordAtPc &&& 0xF0FF = 0xF015 then (s.reg (xField s.wordAtPc)).toNat else s.dt.toNat) - 1 ∧
    t.st.toNat = (if s.wordAtPc &&& 0xF0FF = 0xF018 then (s.reg (xField s.wordAtPc)).toNat else s.st.toNat) - 1

/-! ## Faults -/

/-- R61, R111: a step that faults writes nothing but the run state and the fault record, which holds the cause, the
`pc` and the fetched word (0 for FETCH_BOUNDS); no timer phase, no diagnostic. DERIVED: rests on D10 and D15
(log entries 15, 4). -/
def Obligations.FaultingStepWritesOnlyTheRecord : Prop :=
  ∀ s t : State, s.run = .running → step s = .next t → t.run = .faulted →
    t = s.faultedWith t.faultCause t.faultWord ∧ diagEvent s = none ∧ t.faultCause ≠ .noFault ∧
    (t.faultCause = .fetchBounds → t.faultWord = 0) ∧
    (t.faultCause ≠ .fetchBounds → s.canFetch ∧ t.faultWord = s.wordAtPc)

/-- R110, R113: a step of a running machine faults with a cause exactly when R110's condition for that cause holds on
the state before it; where no condition holds the machine runs on. DERIVED: rests on D3, D9, D11, D15, for DXYN with
`N = 0` on D26, and for the words tested on D7 (log entries 10, 14, 16, 4, 22, 13). -/
def Obligations.FaultsExactlyOnTheirConditions : Prop :=
  ∀ s t : State, s.run = .running → step s = .next t →
    ∀ c : FaultCause, (t.run = .faulted ∧ t.faultCause = c) ↔ faultCondition s c

/-- The instructions of R64, R66, R89, R90, R91, R93, R99 and R100 take their faults in the state before them, each on
its own condition; DXYN tests DATA_BOUNDS before FB_RANGE (R113). DERIVED: rests on D9, D10, D11, D15
(log entries 14, 15, 16, 4). -/
def Obligations.InstructionsTakeTheirFaults : Prop :=
  (∀ s : State, s.sp.val = 0 → exec .ret s = .next (s.faultedWith .stackUnderflow 0x00EE)) ∧
  (∀ (s : State) (nnn : Addr12), s.sp.val = 16 →
    exec (.call nnn) s = .next (s.faultedWith .stackOverflow (encode (.call nnn)))) ∧
  (∀ (s : State) (x : Reg), s.iReg.toNat + 2 > 0xFFF →
    exec (.ldBVx x) s = .next (s.faultedWith .dataBounds (encode (.ldBVx x)))) ∧
  (∀ (s : State) (x : Reg), s.iReg.toNat + x.val > 0xFFF →
    exec (.ldMemVx x) s = .next (s.faultedWith .dataBounds (encode (.ldMemVx x))) ∧
    exec (.ldVxMem x) s = .next (s.faultedWith .dataBounds (encode (.ldVxMem x)))) ∧
  (∀ (s : State) (x : Reg), (s.reg x).toNat > 15 →
    exec (.skp x) s = .next (s.faultedWith .keyRange (encode (.skp x))) ∧
    exec (.sknp x) s = .next (s.faultedWith .keyRange (encode (.sknp x)))) ∧
  (∀ (s : State) (x y : Reg) (n : Nibble), n.toNat > 0 → s.iReg.toNat + n.toNat - 1 > 0xFFF →
    exec (.drw x y n) s = .next (s.faultedWith .dataBounds (encode (.drw x y n)))) ∧
  (∀ (s : State) (x y : Reg) (n : Nibble) (px py : Nat), s.iReg.toNat + n.toNat ≤ 0x1000 →
    spriteHits (s.reg x).toNat (s.reg y).toNat (s.mem.readBytes s.iReg.toNat n.toNat) px py →
    (px > 63 ∨ py > 31) → exec (.drw x y n) s = .next (s.faultedWith .fbRange (encode (.drw x y n))))

/-! ## Invariants -/

/-- Every step keeps the memory in canonical form and inside the address space. DERIVED: that no cell lies outside
0..0xFFF follows from R30 and R33; the canonical form itself (addresses rising, no cell equal to its reset
contents) is the model's own choice, log entry 2. -/
def Obligations.StepKeepsMemoryCanonical : Prop :=
  ∀ s t : State, s.memCanonical → step s = .next t → t.memCanonical

/-- R13, R66, R85: `pc` never exceeds 0x10FE and no return address exceeds 0x1000, so `pc` arithmetic never wraps.
DERIVED: the spec infers the bound from R56, R63 and R71; BNNN's exact sum is D20 (log entry 10), the `pc + 2` that 2NNN
pushes D4 (log entry 11). -/
def Obligations.StepKeepsProgramCounterBounded : Prop :=
  ∀ s t : State, s.pcBounded → step s = .next t → t.pcBounded

/-- R19, R111: the fault record is 0 while the machine runs, and in a faulted machine tells the cause, the `pc` and
the word at it. DERIVED: rests on D15 (log entries 4, 5). -/
def Obligations.StepKeepsFaultRecordConsistent : Prop :=
  ∀ s t : State, s.recordConsistent → step s = .next t → t.recordConsistent

/-- The invariants hold right after reset (R22, R120). DERIVED: the canonical form of memory is the model's own choice
(log entry 2), and so is the cause 0 as `noFault` (log entry 5); the record itself is D15 (log entry 4). -/
def Obligations.InvariantsHoldAtReset : Prop :=
  State.reset.memCanonical ∧ State.reset.pcBounded ∧ State.reset.recordConsistent

/-- Every action of the host that is not refused keeps the three invariants: Reset over any glyph table, Load,
KeySet, RedrawClear and step (R26, R42, R120). DERIVED: what is refused rests on D21 (log entry 8); the invariants
hold the canonical form of memory, the model's own choice (log entry 2), and the fault record, D15 (log entries
4, 5). -/
def Obligations.HostActionsKeepInvariants : Prop :=
  ∀ (u v : Session) (a : HostAction), u.core.Inv → u.act a = .next v → v.core.Inv

/-! ## Rules of the whole machine -/

/-- R17: no step changes a key state; only the host's KeySet does. -/
def Obligations.StepNeverChangesKeys : Prop :=
  ∀ s t : State, step s = .next t → t.keys = s.keys

/-- R18, R97: after a step the redraw flag is set iff it was set before or the step executed 00E0 or DXYN without
faulting; no step clears it. DERIVED: rests on D28 (log entry 18); that only the word 0x00E0 is 00E0 rests on D7 (log
entry 13). -/
def Obligations.RedrawSetExactlyByDisplayInstructions : Prop :=
  ∀ s t : State, step s = .next t → (t.redraw = true ↔ s.redraw = true ∨
    (s.run = .running ∧ t.run = .running ∧ s.canFetch ∧
      (s.wordAtPc = 0x00E0 ∨ s.wordAtPc &&& 0xF000 = 0xD000)))

/-- R11: an instruction that changes `V[0xF]` is one of the six flag writers, or its `X` field names `V[0xF]` as (one
of) its destination registers. -/
def Obligations.FlagRegisterWriters : Prop :=
  ∀ (i : Instr) (s t : State), exec i s = .next t → t.reg 0xF ≠ s.reg 0xF →
    writesFlag i = true ∨ (0xF : Reg) ∈ destRegs i

/-- R11: each flag writer that does not fault leaves exactly 0 or 1 in `V[0xF]`, whatever it held, unless the result
is aimed at `V[0xF]` too; 8XY4 leaves its flag there even then. DERIVED: that last clause rests on D6 (log
entry 12). -/
def Obligations.FlagIsZeroOrOne : Prop :=
  ∀ (i : Instr) (s t : State), writesFlag i = true →
    ((0xF : Reg) ∉ destRegs i ∨ ∃ x y, i = .addVxVy x y) → s.run = .running → exec i s = .next t →
    t.run = .running → t.reg 0xF = 0 ∨ t.reg 0xF = 1

/-- R35: a byte of memory that an instruction changes lies in the range FX33 or FX55 stores to, inside the address
space; no other instruction changes memory. -/
def Obligations.MemoryChangedOnlyByStores : Prop :=
  ∀ (i : Instr) (s t : State) (a : Nat), exec i s = .next t → t.mem.read a ≠ s.mem.read a →
    a ≤ 0xFFF ∧ ∃ x : Reg, (i = .ldBVx x ∧ s.iReg.toNat ≤ a ∧ a ≤ s.iReg.toNat + 2) ∨
      (i = .ldMemVx x ∧ s.iReg.toNat ≤ a ∧ a ≤ s.iReg.toNat + x.val)

/-- R12, R14, R15, R16: the address register, the call stack, the timers and the framebuffer are each changed, in the
execute phase, only by the instructions named there. DERIVED: that FX33, FX55, FX65 and DXYN keep `I` rests on D13 (log
entry 21), and that 00EE keeps the stack's entries on D5 (log entry 11). -/
def Obligations.SpecialStateChangedOnlyByItsInstructions : Prop :=
  ∀ (i : Instr) (s t : State), exec i s = .next t →
    (t.iReg ≠ s.iReg → (∃ nnn, i = .ldINnn nnn) ∨ ∃ x, i = .addIVx x ∨ i = .ldFVx x) ∧
    (t.sp ≠ s.sp → i = .ret ∨ ∃ nnn, i = .call nnn) ∧ (t.stack ≠ s.stack → ∃ nnn, i = .call nnn) ∧
    (t.dt ≠ s.dt → ∃ x, i = .ldDtVx x) ∧ (t.st ≠ s.st → ∃ x, i = .ldStVx x) ∧
    (t.fb ≠ s.fb → i = .cls ∨ ∃ x y n, i = .drw x y n)

/-- R13's list of what each instruction that does not fault writes to `pc`. DERIVED: that 00EE writes the entry at
`SP - 1` with nothing added rests on D4 and D5 (log entry 11), and that BNNN's sum is exact, past 0xFFF too, on
D20 (log entry 10). -/
def Obligations.ProgramCounterAfterInstruction : Prop :=
  ∀ (i : Instr) (s t : State), s.run = .running → exec i s = .next t → t.run = .running →
    match i with
    | .jp nnn | .call nnn => t.pc.toNat = nnn.toNat
    | .jpV0Nnn nnn => t.pc.toNat = nnn.toNat + (s.reg 0).toNat
    | .ret => ∃ k : Fin 16, k.val + 1 = s.sp.val ∧ t.pc = s.stack[k.val]
    | .seVxNn _ _ | .sneVxNn _ _ | .seVxVy _ _ | .sneVxVy _ _ | .skp _ | .sknp _ => t.pc = s.pc + 2 ∨ t.pc = s.pc + 4
    | .ldVxK _ => t.pc = s.pc ∨ t.pc = s.pc + 2
    | _ => t.pc = s.pc + 2

/-! ## Control transfer -/

/-- 00EE with an entry in use (R64): it pops into `pc` with no increment added; the entry keeps its content, and
everything else stays. DERIVED: that the entry is kept rests on D5 (log entry 11). -/
def Obligations.ReturnPops : Prop :=
  ∀ (s : State) (h : 0 < s.sp.val), ∃ t, exec .ret s = .next t ∧ t.pc = s.stack[s.sp.val - 1]'(by omega) ∧
    t.sp.val = s.sp.val - 1 ∧ t.stack = s.stack ∧ Frame { stack := true } s t

/-- 2NNN with room on the stack (R66): it pushes `pc + 2` and jumps; the other entries and everything else stay.
DERIVED: the value pushed rests on D4 (log entry 11). -/
def Obligations.CallPushes : Prop :=
  ∀ (s : State) (nnn : Addr12) (h : s.sp.val < 16), ∃ t, exec (.call nnn) s = .next t ∧
    t.pc.toNat = nnn.toNat ∧ t.sp.val = s.sp.val + 1 ∧ t.stack[s.sp.val] = s.pc + 2 ∧
    (∀ k : Fin 16, k.val ≠ s.sp.val → t.stack[k.val] = s.stack[k.val]) ∧ Frame { stack := true } s t

/-- 2NNN, then any instructions that leave the stack as 2NNN left it, then 00EE: `pc` is the call's address + 2 and
the stack pointer is what it was (R64, R66). DERIVED: rests on D4 (log entry 11). -/
def Obligations.CallThenReturn : Prop :=
  ∀ (s t u : State) (nnn : Addr12), s.sp.val < 16 → exec (.call nnn) s = .next t → u.sp = t.sp → u.stack = t.stack →
    ∃ v, exec .ret u = .next v ∧ v.pc = s.pc + 2 ∧ v.sp = s.sp

/-- 1NNN and BNNN (R65, R71): `pc` becomes `NNN`, or `NNN + V[0]` not reduced to 12 bits; nothing else changes.
DERIVED: that the sum is not reduced rests on D20 (log entry 10). -/
def Obligations.JumpsSetProgramCounter : Prop :=
  ∀ (s : State) (nnn : Addr12),
    (∃ t, exec (.jp nnn) s = .next t ∧ t.pc.toNat = nnn.toNat ∧ Frame {} s t) ∧
    (∃ t, exec (.jpV0Nnn nnn) s = .next t ∧ t.pc.toNat = nnn.toNat + (s.reg 0).toNat ∧ Frame {} s t)

/-- 3XNN, 4XNN, 5XY0, 9XY0 (R67 to R70), their encodings and effects: `pc + 4` when the condition holds and `pc + 2` when not; nothing else
changes. -/
def Obligations.SkipsOnEquality : Prop :=
  ∀ (s : State) (x y : Reg) (nn : Byte),
    (decodeWord (formatXNN 0x3 x nn) = .ok (.seVxNn x nn) ∧ decodeWord (formatXNN 0x4 x nn) = .ok (.sneVxNn x nn) ∧
      decodeWord (formatXYN 0x5 x y 0) = .ok (.seVxVy x y) ∧ decodeWord (formatXYN 0x9 x y 0) = .ok (.sneVxVy x y)) ∧
    (∃ t, exec (.seVxNn x nn) s = .next t ∧ t.pc = (if s.reg x = nn then s.pc + 4 else s.pc + 2) ∧ Frame {} s t) ∧
    (∃ t, exec (.sneVxNn x nn) s = .next t ∧ t.pc = (if s.reg x ≠ nn then s.pc + 4 else s.pc + 2) ∧ Frame {} s t) ∧
    (∃ t, exec (.seVxVy x y) s = .next t ∧
      t.pc = (if s.reg x = s.reg y then s.pc + 4 else s.pc + 2) ∧ Frame {} s t) ∧
    (∃ t, exec (.sneVxVy x y) s = .next t ∧
      t.pc = (if s.reg x ≠ s.reg y then s.pc + 4 else s.pc + 2) ∧ Frame {} s t)

/-! ## Registers and arithmetic -/

/-- 6XNN and 8XY0 (R73, R75), encoding and effect: `V[X]` becomes the immediate, or the other register's value; no flag. -/
def Obligations.LoadImmediateAndCopy : Prop :=
  ∀ (s : State) (x y : Reg) (nn : Byte),
    (decodeWord (formatXNN 0x6 x nn) = .ok (.ldVxNn x nn) ∧ decodeWord (formatXYN 0x8 x y 0) = .ok (.ldVxVy x y)) ∧
    (∃ t, exec (.ldVxNn x nn) s = .next t ∧ t.reg x = nn ∧ t.pc = s.pc + 2 ∧ Frame { regs := [x] } s t) ∧
    (∃ t, exec (.ldVxVy x y) s = .next t ∧ t.reg x = s.reg y ∧ t.pc = s.pc + 2 ∧ Frame { regs := [x] } s t)

/-- 7XNN (R74), encoding and effect: the 8-bit wrapped sum, and no flag is written. -/
def Obligations.AddImmediateWraps : Prop :=
  ∀ (s : State) (x : Reg) (nn : Byte), decodeWord (formatXNN 0x7 x nn) = .ok (.addVxNn x nn) ∧
    ∃ t, exec (.addVxNn x nn) s = .next t ∧
    (t.reg x).toNat = ((s.reg x).toNat + nn.toNat) % 256 ∧ t.pc = s.pc + 2 ∧ Frame { regs := [x] } s t

/-- 8XY1, 8XY2, 8XY3 (R76 to R78), encodings and effects: OR, AND, XOR bit by bit, and no flag is written. -/
def Obligations.LogicIsBitwise : Prop :=
  ∀ (s : State) (x y : Reg),
    (decodeWord (formatXYN 0x8 x y 1) = .ok (.orVxVy x y) ∧ decodeWord (formatXYN 0x8 x y 2) = .ok (.andVxVy x y) ∧
      decodeWord (formatXYN 0x8 x y 3) = .ok (.xorVxVy x y)) ∧
    (∃ t, exec (.orVxVy x y) s = .next t ∧ t.pc = s.pc + 2 ∧ Frame { regs := [x] } s t ∧
      ∀ k < 8, (t.reg x).getLsbD k = ((s.reg x).getLsbD k || (s.reg y).getLsbD k)) ∧
    (∃ t, exec (.andVxVy x y) s = .next t ∧ t.pc = s.pc + 2 ∧ Frame { regs := [x] } s t ∧
      ∀ k < 8, (t.reg x).getLsbD k = ((s.reg x).getLsbD k && (s.reg y).getLsbD k)) ∧
    (∃ t, exec (.xorVxVy x y) s = .next t ∧ t.pc = s.pc + 2 ∧ Frame { regs := [x] } s t ∧
      ∀ k < 8, (t.reg x).getLsbD k = ((s.reg x).getLsbD k ^^ (s.reg y).getLsbD k))

/-- 8XY4 (R79), encoding and effect: `V[0xF]` becomes 1 iff the exact sum exceeds 255, else 0, also for `X = 0xF`,
where the sum is lost; otherwise `V[X]` becomes the sum modulo 256. DERIVED: the case `X = 0xF` rests on D6 (R72,
log entry 12). -/
def Obligations.AddSetsCarry : Prop :=
  ∀ (s : State) (x y : Reg), decodeWord (formatXYN 0x8 x y 4) = .ok (.addVxVy x y) ∧
    ∃ t, exec (.addVxVy x y) s = .next t ∧
    t.reg 0xF = (if (s.reg x).toNat + (s.reg y).toNat > 255 then 1 else 0) ∧
    (x ≠ 0xF → (t.reg x).toNat = ((s.reg x).toNat + (s.reg y).toNat) % 256) ∧
    t.pc = s.pc + 2 ∧ Frame { regs := [x, 0xF] } s t

/-- 8XY5 and 8XY7 (R80, R82): `V[X]` becomes the difference modulo 256, also for `X = 0xF`, where the flag is lost;
otherwise `V[0xF]` becomes 0 iff a borrow occurred, else 1. DERIVED: the case `X = 0xF` rests on D6
(log entry 12). -/
def Obligations.SubtractionsSetNoBorrow : Prop :=
  ∀ (s : State) (x y : Reg),
    (∃ t, exec (.sub x y) s = .next t ∧
      ((t.reg x).toNat : Int) = ((s.reg x).toNat - (s.reg y).toNat : Int) % 256 ∧
      (x ≠ 0xF → t.reg 0xF = (if (s.reg x).toNat < (s.reg y).toNat then 0 else 1)) ∧
      t.pc = s.pc + 2 ∧ Frame { regs := [x, 0xF] } s t) ∧
    (∃ t, exec (.subn x y) s = .next t ∧
      ((t.reg x).toNat : Int) = ((s.reg y).toNat - (s.reg x).toNat : Int) % 256 ∧
      (x ≠ 0xF → t.reg 0xF = (if (s.reg y).toNat < (s.reg x).toNat then 0 else 1)) ∧
      t.pc = s.pc + 2 ∧ Frame { regs := [x, 0xF] } s t)

/-- 8XY6 and 8XYE (R81, R83): `V[X]` is shifted by one place whatever `Y` is, also for `X = 0xF`, where the flag is
lost; otherwise `V[0xF]` becomes the bit shifted out, as 0 or 1. DERIVED: the case `X = 0xF` rests on D6
(log entry 12). -/
def Obligations.ShiftsReportTheLostBit : Prop :=
  ∀ (s : State) (x y : Reg),
    (∃ t, exec (.shr x y) s = .next t ∧ (t.reg x).toNat = (s.reg x).toNat / 2 ∧
      (x ≠ 0xF → (t.reg 0xF).toNat = (s.reg x).toNat % 2) ∧ t.pc = s.pc + 2 ∧ Frame { regs := [x, 0xF] } s t) ∧
    (∃ t, exec (.shl x y) s = .next t ∧ (t.reg x).toNat = 2 * (s.reg x).toNat % 256 ∧
      (x ≠ 0xF → (t.reg 0xF).toNat = (s.reg x).toNat / 128) ∧ t.pc = s.pc + 2 ∧ Frame { regs := [x, 0xF] } s t)

/-- CXNN (R84): `V[X]` becomes `NN` and the byte drawn, so it has no bit that `NN` lacks; the draw is consumed.
DERIVED: the byte is the free value `Config.randomByte` (D17, log entry 1), and this holds whatever it is. -/
def Obligations.RandomIsMasked : Prop :=
  ∀ (s : State) (x : Reg) (nn : Byte), ∃ t, exec (.rnd x nn) s = .next t ∧
    t.reg x = nn &&& Config.randomByte s.draws ∧ (∀ k < 8, (t.reg x).getLsbD k = true → nn.getLsbD k = true) ∧
    t.draws = s.draws + 1 ∧ t.pc = s.pc + 2 ∧ Frame { regs := [x], draws := true } s t

/-! ## The address register and memory -/

/-- ANNN and FX29 (R86, R88), encodings and effects: `I` becomes `NNN`, or the whole byte `V[X]` times 5; no flag.
DERIVED: that FX29 multiplies the whole byte, above 15 too, rests on D27 (log entry 22). -/
def Obligations.LoadAddressRegister : Prop :=
  ∀ (s : State) (x : Reg) (nnn : Addr12),
    (decodeWord (formatNNN 0xA nnn) = .ok (.ldINnn nnn) ∧ decodeWord (formatX 0xF x 0x29) = .ok (.ldFVx x)) ∧
    (∃ t, exec (.ldINnn nnn) s = .next t ∧ t.iReg.toNat = nnn.toNat ∧ t.pc = s.pc + 2 ∧
      Frame { iReg := true } s t) ∧
    (∃ t, exec (.ldFVx x) s = .next t ∧ t.iReg.toNat = (s.reg x).toNat * 5 ∧ t.pc = s.pc + 2 ∧
      Frame { iReg := true } s t)

/-- FX1E (R87): the 16-bit wrapped sum, and no flag is written. DERIVED: the wrap rests on D12 (log entry 20). -/
def Obligations.AddToAddressRegisterWraps : Prop :=
  ∀ (s : State) (x : Reg), ∃ t, exec (.addIVx x) s = .next t ∧
    t.iReg.toNat = (s.iReg.toNat + (s.reg x).toNat) % 65536 ∧ t.pc = s.pc + 2 ∧ Frame { iReg := true } s t

/-- FX33 inside memory (R89): the hundreds, tens and ones of `V[X]` at `I`, `I+1`, `I+2`; every other byte, `I` and
the registers stay. DERIVED: that `I` stays rests on D13 (log entry 21). -/
def Obligations.StoreDecimalDigits : Prop :=
  ∀ (s : State) (x : Reg), s.iReg.toNat + 2 ≤ 0xFFF → ∃ t, exec (.ldBVx x) s = .next t ∧
    (t.mem.read s.iReg.toNat).toNat = (s.reg x).toNat / 100 ∧
    (t.mem.read (s.iReg.toNat + 1)).toNat = (s.reg x).toNat / 10 % 10 ∧
    (t.mem.read (s.iReg.toNat + 2)).toNat = (s.reg x).toNat % 10 ∧
    t.pc = s.pc + 2 ∧ Frame { stored := (s.iReg.toNat, 3) } s t

/-- FX55 inside memory (R90): `V[0]`..`V[X]` at `I`.. upward; every other byte, `I` and the registers stay.
DERIVED: that `I` stays rests on D13 (log entry 21). -/
def Obligations.StoreRegisters : Prop :=
  ∀ (s : State) (x : Reg), s.iReg.toNat + x.val ≤ 0xFFF → ∃ t, exec (.ldMemVx x) s = .next t ∧
    (∀ r : Reg, r ≤ x → t.mem.read (s.iReg.toNat + r.val) = s.reg r) ∧
    t.pc = s.pc + 2 ∧ Frame { stored := (s.iReg.toNat, x.val + 1) } s t

/-- FX65 inside memory (R91): `V[0]`..`V[X]` from `I`.. upward; the registers beyond, `I` and memory stay.
DERIVED: that `I` stays rests on D13 (log entry 21). -/
def Obligations.LoadRegisters : Prop :=
  ∀ (s : State) (x : Reg), s.iReg.toNat + x.val ≤ 0xFFF → ∃ t, exec (.ldVxMem x) s = .next t ∧
    (∀ r : Reg, r ≤ x → t.reg r = s.mem.read (s.iReg.toNat + r.val)) ∧
    t.pc = s.pc + 2 ∧ Frame { regs := destRegs (.ldVxMem x) } s t

/-- FX55, then FX65 in any state with the same memory and `I`, reproduces `V[0]`..`V[X]` and leaves the registers
beyond `X` untouched (R90, R91). DERIVED: that no ANNN is needed between rests on D13 (log entry 21). -/
def Obligations.StoreThenLoadRoundTrip : Prop :=
  ∀ (s t u : State) (x : Reg), s.iReg.toNat + x.val ≤ 0xFFF → exec (.ldMemVx x) s = .next t →
    u.iReg = t.iReg → (∀ a, u.mem.read a = t.mem.read a) →
    ∃ v, exec (.ldVxMem x) u = .next v ∧ (∀ r : Reg, r ≤ x → v.reg r = s.reg r) ∧ ∀ r : Reg, x < r → v.reg r = u.reg r

/-- R40: after a step of FX33 or FX55 that does not fault, any later fetch with no store between (any state `u` whose
memory reads as the state after the step; the very next fetch is `u = t`) reads each of its two bytes as just
stored where the store covered it, and as before where it did not: for every overlap, the storing instruction's
own bytes included. DERIVED: the spec infers R40 from R34, R38 and R21; that a store that fits is stored whole and
one that does not is a fault rests on D10 (log entry 15). -/
def Obligations.StoreIsSeenByTheNextFetch : Prop :=
  ∀ (s t u : State) (i : Instr) (bytes : List Byte), s.run = .running → s.canFetch → decodeWord s.wordAtPc = .ok i →
    (∃ x, (i = .ldBVx x ∧ bytes = decimalDigits (s.reg x)) ∨ (i = .ldMemVx x ∧ bytes = regsUpTo s x)) →
    step s = .next t → t.run = .running → (∀ a, u.mem.read a = t.mem.read a) → u.canFetch →
    fetch u = .ok (wordOfBytes (byteAfterStore s.mem s.iReg.toNat bytes u.pc.toNat)
      (byteAfterStore s.mem s.iReg.toNat bytes (u.pc.toNat + 1)))

/-! ## Display -/

/-- 00E0 (R92), encoding and effect: every pixel 0, `redraw` 1, nothing else. -/
def Obligations.ClearScreen : Prop :=
  ∀ s : State, decodeWord 0x00E0 = .ok .cls ∧ ∃ t, exec .cls s = .next t ∧ (∀ x y, x < 64 → y < 32 → t.fb.pixel x y = false) ∧
    t.redraw = true ∧ t.pc = s.pc + 2 ∧ Frame { display := true } s t

/-- R94, R95: a blit whose set bits all lie inside toggles exactly their pixels, leaves every other pixel alone, and
reports a collision iff one of them was on. DERIVED: the spec infers from R96 that no pixel is toggled
twice. -/
def Obligations.BlitTogglesExactlyTheSetBits : Prop :=
  ∀ (fb : Framebuffer) (x0 y0 : Nat) (bytes : List Byte),
    (∀ x y, spriteHits x0 y0 bytes x y → x < 64 ∧ y < 32) →
    ∃ (c : Bool) (fb' : Framebuffer), blit fb x0 y0 bytes = .ok (c, fb') ∧
      (∀ x y, spriteHits x0 y0 bytes x y → fb'.pixel x y = !fb.pixel x y) ∧
      (∀ x y, ¬ spriteHits x0 y0 bytes x y → fb'.pixel x y = fb.pixel x y) ∧
      (c = true ↔ ∃ x y, spriteHits x0 y0 bytes x y ∧ fb.pixel x y = true)

/-- DXYN with its bytes in memory and its set bits inside (R93): the sprite at `I` is XORed in at `(V[X], V[Y])`, read
before the flag is written; `V[0xF]` becomes the collision, `redraw` 1, and `I` and memory stay; with `N = 0`
no pixel changes and no address matters. DERIVED: rests on D8, D9, D13 and D26 (log entries 14, 21, 22). -/
def Obligations.DrawSprite : Prop :=
  ∀ (s : State) (x y : Reg) (n : Nibble), (n.toNat = 0 ∨ s.iReg.toNat + n.toNat - 1 ≤ 0xFFF) →
    (∀ px py, spriteHits (s.reg x).toNat (s.reg y).toNat (s.mem.readBytes s.iReg.toNat n.toNat) px py →
      px < 64 ∧ py < 32) →
    ∃ t, exec (.drw x y n) s = .next t ∧
      (∀ px py, t.fb.pixel px py = true ↔
        (s.fb.pixel px py = true ∧
          ¬ spriteHits (s.reg x).toNat (s.reg y).toNat (s.mem.readBytes s.iReg.toNat n.toNat) px py) ∨
        (s.fb.pixel px py = false ∧
          spriteHits (s.reg x).toNat (s.reg y).toNat (s.mem.readBytes s.iReg.toNat n.toNat) px py)) ∧
      (t.reg 0xF = 1 ∨ t.reg 0xF = 0) ∧
      (t.reg 0xF = 1 ↔ ∃ px py, s.fb.pixel px py = true ∧
        spriteHits (s.reg x).toNat (s.reg y).toNat (s.mem.readBytes s.iReg.toNat n.toNat) px py) ∧
      t.redraw = true ∧ t.pc = s.pc + 2 ∧ Frame { regs := [0xF], display := true } s t

/-- R95: two non-faulting executions of the same DXYN with the same coordinates, `I` and sprite bytes, and nothing
drawn between, restore the framebuffer exactly; the second reports 1 iff the first turned a pixel on.
DERIVED: the spec infers the second clause from R94 (D9, log entry 14). -/
def Obligations.DrawTwiceRestores : Prop :=
  ∀ (s t u v : State) (x y : Reg) (n : Nibble), s.run = .running → exec (.drw x y n) s = .next t → t.run = .running →
    u.fb = t.fb → u.run = .running → u.reg x = s.reg x → u.reg y = s.reg y → u.iReg = s.iReg →
    (∀ a, u.mem.read a = s.mem.read a) → exec (.drw x y n) u = .next v →
    v.run = .running ∧ v.fb = s.fb ∧
    (v.reg 0xF = 1 ↔ ∃ px py, s.fb.pixel px py = false ∧ t.fb.pixel px py = true)

/-! ## Keypad -/

/-- EX9E and EXA1 with a key code 0..15 in `V[X]` (R99, R100): the level of that key decides the skip; nothing else
changes. DERIVED: that larger codes are faults and not masked rests on D11 (log entry 16). -/
def Obligations.SkipsOnKey : Prop :=
  ∀ (s : State) (x : Reg) (h : (s.reg x).toNat < 16),
    (∃ t, exec (.skp x) s = .next t ∧
      t.pc = (if s.keys[(s.reg x).toNat] = true then s.pc + 4 else s.pc + 2) ∧ Frame {} s t) ∧
    (∃ t, exec (.sknp x) s = .next t ∧
      t.pc = (if s.keys[(s.reg x).toNat] = false then s.pc + 4 else s.pc + 2) ∧ Frame {} s t)

/-- FX0A (R101): with a key down, `V[X]` becomes the highest code that is down and `pc` advances by 2; with none down,
nothing changes, `pc` included. -/
def Obligations.WaitForKey : Prop :=
  (∀ (s : State) (x k : Reg), s.keys[k.val] = true → (∀ j : Reg, k < j → s.keys[j.val] = false) →
    ∃ t, exec (.ldVxK x) s = .next t ∧ (t.reg x).toNat = k.val ∧ t.pc = s.pc + 2 ∧ Frame { regs := [x] } s t) ∧
  (∀ (s : State) (x : Reg), (∀ k : Reg, s.keys[k.val] = false) → exec (.ldVxK x) s = .next s)

/-- R101 (e), R58: however many steps are taken while FX0A waits and no key is set, only the timers move: each is
lowered by the number of steps, saturating at 0. DERIVED: rests on D14 (log entry 17). -/
def Obligations.WaitingMovesOnlyTheTimers : Prop :=
  ∀ s : State, s.waiting → ∀ k : Nat, Sys2Proof.core.run k s =
    .next { s with dt := BitVec.ofNat 8 (s.dt.toNat - k), st := BitVec.ofNat 8 (s.st.toNat - k) }

/-! ## Timers -/

/-- FX07, FX15, FX18 in the execute phase (R102, R103, R104). -/
def Obligations.TimerTransfers : Prop :=
  ∀ (s : State) (x : Reg),
    (∃ t, exec (.ldVxDt x) s = .next t ∧ t.reg x = s.dt ∧ t.pc = s.pc + 2 ∧ Frame { regs := [x] } s t) ∧
    (∃ t, exec (.ldDtVx x) s = .next t ∧ t.dt = s.reg x ∧ t.pc = s.pc + 2 ∧ Frame { dt := true } s t) ∧
    (∃ t, exec (.ldStVx x) s = .next t ∧ t.st = s.reg x ∧ t.pc = s.pc + 2 ∧ Frame { st := true } s t)

/-! ## Reset, the host and the end of a run -/

/-- R22: what reset leaves, in the machine's own reset state (`core.reset`), over the default GLYPH_TABLE, and for any
table the host gives. DERIVED: the default bytes and the fault record's zeros are log entries 3 and 5 (D16, D15). -/
def Obligations.ResetValues : Prop :=
  (∀ r : Reg, State.reset.reg r = 0) ∧ State.reset.iReg = 0 ∧ State.reset.pc = 0x200 ∧ State.reset.sp.val = 0 ∧
  (∀ k : Fin 16, State.reset.stack[k.val] = 0) ∧ State.reset.dt = 0 ∧ State.reset.st = 0 ∧
  (∀ x y, State.reset.fb.pixel x y = false) ∧ (∀ k : Reg, State.reset.keys[k.val] = false) ∧
  State.reset.redraw = false ∧ State.reset.run = .running ∧ State.reset.faultCause.code = 0 ∧
  State.reset.faultPc = 0 ∧ State.reset.faultWord = 0 ∧ Sys2Proof.core.reset = State.reset ∧
  glyphTable.length = 80 ∧ (∀ a, a < 0x050 → State.reset.mem.read a = glyphTable.getD a 0) ∧
  (∀ a, 0x050 ≤ a → State.reset.mem.read a = 0) ∧
  (∀ glyphs : Vector Byte 80, glyphs.toList = glyphTable → resetWith glyphs = State.reset) ∧
  (∀ glyphs : Vector Byte 80, (∀ k : Fin 80, (resetWith glyphs).mem.read k.val = glyphs[k.val]) ∧
    (∀ a, 0x050 ≤ a → (resetWith glyphs).mem.read a = 0) ∧
    resetWith glyphs = { State.reset with mem := (resetWith glyphs).mem })

/-- R120, R112: from every session, faulted or not, `Reset` answers the reset state over the table given, with no step
and no `Load` behind it; and it is the only action after which a faulted machine runs. DERIVED: rests on D22 and
D15 (log entries 26, 4); that the model's own counter `draws` is kept is log entry 1. -/
def Obligations.ResetAlwaysRestartsTheMachine : Prop :=
  (∀ (u : Session) (glyphs : Vector Byte 80), u.act (.reset glyphs) =
    .next { core := { resetWith glyphs with draws := u.core.draws }, stepped := false, loaded := false }) ∧
  ∀ (u v : Session) (a : HostAction), u.core.run = .faulted → u.act a = .next v → v.core.run = .running →
    ∃ glyphs, a = .reset glyphs

/-- R42: `Load` within its contract copies the bytes verbatim from 0x200 up and changes nothing else; outside it, it is
refused. DERIVED: the refusal rests on D21 (log entry 8). -/
def Obligations.LoadCopiesTheProgram : Prop :=
  ∀ (u : Session) (bytes : List Byte),
    (u.core.run = .running → u.stepped = false → u.loaded = false → bytes.length ≤ 3584 →
      ∃ v, u.act (.load bytes) = .next v ∧ v.loaded = true ∧ v.stepped = false ∧
        (∀ k, k < bytes.length → v.core.mem.read (0x200 + k) = bytes.getD k 0) ∧
        (∀ a, ¬ (0x200 ≤ a ∧ a < 0x200 + bytes.length) → v.core.mem.read a = u.core.mem.read a) ∧
        v.core = { u.core with mem := v.core.mem }) ∧
    (u.core.run = .faulted ∨ u.stepped = true ∨ u.loaded = true ∨ bytes.length > 3584 →
      u.act (.load bytes) = .refused .loadContract)

/-- R26: `KeySet` writes one key state and is refused above 15; `RedrawClear` clears the redraw flag; neither changes
anything else. DERIVED: the refusal rests on D21 (log entry 8). -/
def Obligations.KeySetAndRedrawClear : Prop :=
  ∀ u : Session,
    (∀ (k : Reg) (p : Bool), ∃ v, u.act (.keySet k.val p) = .next v ∧ v.core.keys[k.val] = p ∧
      (∀ j : Reg, j ≠ k → v.core.keys[j.val] = u.core.keys[j.val]) ∧
      v = { u with core := { u.core with keys := v.core.keys } }) ∧
    (∀ (code : Nat) (p : Bool), code > 15 → u.act (.keySet code p) = .refused .keyCode) ∧
    u.act .redrawClear = .next { u with core := { u.core with redraw := false } }

/-- R62: at the conventional end every step leaves every piece of state unchanged except that the timers keep counting
down to 0, for ever. DERIVED: the definition of the end is D25; the timer phase is D14 (log entries 23, 17). -/
def Obligations.ConventionalEndIsStable : Prop :=
  ∀ s : State, s.atEnd → ∀ k : Nat, Sys2Proof.core.run k s =
    .next { s with dt := BitVec.ofNat 8 (s.dt.toNat - k), st := BitVec.ofNat 8 (s.st.toNat - k) }
end

