-- ==== Sys2Proof/Laws/Decode.lean ====
section
/-! SUPPORT. The laws of the fields and of the opcode map: a word is its four digits, the formats of R46 have the
fields they were given, and each mask of R48 tests exactly the digits its pattern spells. -/

namespace Sys2Proof

/-- The word of four hexadecimal digits, most significant first (R5). -/
def digits (a b c d : Nibble) : Word := a ++ b ++ c ++ d

theorem toNat_append4 {n : Nat} (a : BitVec n) (b : Nibble) : (a ++ b).toNat = a.toNat * 16 + b.toNat := by
  rw [BitVec.toNat_append, ← Nat.shiftLeft_add_eq_or_of_lt b.isLt, Nat.shiftLeft_eq]

theorem toNat_digits (a b c d : Nibble) :
    (digits a b c d).toNat = a.toNat * 4096 + b.toNat * 256 + c.toNat * 16 + d.toNat := by
  change (a ++ b ++ c ++ d : BitVec (4 + 4 + 4 + 4)).toNat = _
  rw [toNat_append4, toNat_append4, toNat_append4]
  omega

theorem digits_inj {a b c d a' b' c' d' : Nibble} :
    digits a b c d = digits a' b' c' d' ↔ a = a' ∧ b = b' ∧ c = c' ∧ d = d' := by
  constructor
  · intro h
    have := congrArg BitVec.toNat h
    rw [toNat_digits, toNat_digits] at this
    have := a.isLt; have := b.isLt; have := c.isLt; have := d.isLt
    have := a'.isLt; have := b'.isLt; have := c'.isLt; have := d'.isLt
    refine ⟨?_, ?_, ?_, ?_⟩ <;> apply BitVec.eq_of_toNat_eq <;> omega
  · rintro ⟨rfl, rfl, rfl, rfl⟩; rfl

theorem digits_and (a b c d a' b' c' d' : Nibble) :
    digits a b c d &&& digits a' b' c' d' = digits (a &&& a') (b &&& b') (c &&& c') (d &&& d') := by
  change (a ++ b ++ c ++ d : BitVec (4 + 4 + 4 + 4)) &&& (a' ++ b' ++ c' ++ d') = _
  rw [BitVec.and_append, BitVec.and_append, BitVec.and_append]
  rfl

/-- The second digit of a word as a number; `xField` reads it as a register index. -/
def xDigit (w : Word) : Nibble := w.extractLsb' 8 4

/-- The third digit of a word. -/
def yDigit (w : Word) : Nibble := w.extractLsb' 4 4

theorem eq_digits (w : Word) : w = digits (opField w) (xDigit w) (yDigit w) (nField w) := by
  apply BitVec.eq_of_toNat_eq
  rw [toNat_digits]
  simp only [opField, xDigit, yDigit, nField, BitVec.extractLsb'_toNat, Nat.shiftRight_eq_div_pow]
  have := w.isLt
  omega

@[simp] theorem opField_digits (a b c d : Nibble) : opField (digits a b c d) = a :=
  (digits_inj.1 (eq_digits (digits a b c d))).1.symm
@[simp] theorem xDigit_digits (a b c d : Nibble) : xDigit (digits a b c d) = b :=
  (digits_inj.1 (eq_digits (digits a b c d))).2.1.symm
@[simp] theorem yDigit_digits (a b c d : Nibble) : yDigit (digits a b c d) = c :=
  (digits_inj.1 (eq_digits (digits a b c d))).2.2.1.symm
@[simp] theorem nField_digits (a b c d : Nibble) : nField (digits a b c d) = d :=
  (digits_inj.1 (eq_digits (digits a b c d))).2.2.2.symm

theorem xField_eq (w : Word) : xField w = (xDigit w).toFin := rfl
theorem yField_eq (w : Word) : yField w = (yDigit w).toFin := rfl

@[simp] theorem xField_digits (a b c d : Nibble) : xField (digits a b c d) = b.toFin := by simp [xField_eq]
@[simp] theorem yField_digits (a b c d : Nibble) : yField (digits a b c d) = c.toFin := by simp [yField_eq]

/-- `NN = Y ++ N` (R46). -/
theorem nnField_eq (w : Word) : nnField w = yDigit w ++ nField w := by
  apply BitVec.eq_of_toNat_eq
  rw [toNat_append4]
  simp only [nnField, yDigit, nField, BitVec.extractLsb'_toNat, Nat.shiftRight_eq_div_pow]
  omega

/-- `NNN = X ++ Y ++ N` (R46). -/
theorem nnnField_eq (w : Word) : nnnField w = xDigit w ++ yDigit w ++ nField w := by
  apply BitVec.eq_of_toNat_eq
  rw [toNat_append4, toNat_append4]
  simp only [nnnField, xDigit, yDigit, nField, BitVec.extractLsb'_toNat, Nat.shiftRight_eq_div_pow]
  omega

/-! ## The formats, digit by digit -/

theorem byte_eq_append (b : Byte) : b = b.extractLsb' 4 4 ++ b.extractLsb' 0 4 := by
  apply BitVec.eq_of_toNat_eq
  rw [toNat_append4]
  simp only [BitVec.extractLsb'_toNat, Nat.shiftRight_eq_div_pow]
  have := b.isLt
  omega

theorem addr_eq_append (a : Addr12) : a = a.extractLsb' 8 4 ++ a.extractLsb' 4 4 ++ a.extractLsb' 0 4 := by
  apply BitVec.eq_of_toNat_eq
  rw [toNat_append4, toNat_append4]
  simp only [BitVec.extractLsb'_toNat, Nat.shiftRight_eq_div_pow]
  have := a.isLt
  omega

theorem formatXYN_eq (op : Nibble) (x y : Reg) (n : Nibble) :
    formatXYN op x y n = digits op (regField x) (regField y) n := rfl

theorem toNat_formatXNN (op : Nibble) (x : Reg) (nn : Byte) :
    (formatXNN op x nn).toNat = op.toNat * 4096 + x.val * 256 + nn.toNat := by
  change (op ++ regField x ++ nn : BitVec (4 + 4 + 8)).toNat = _
  rw [BitVec.toNat_append, ← Nat.shiftLeft_add_eq_or_of_lt nn.isLt, Nat.shiftLeft_eq, toNat_append4]
  simp only [regField, BitVec.toNat_ofFin]
  omega

theorem formatXNN_eq (op : Nibble) (x : Reg) (nn : Byte) :
    formatXNN op x nn = digits op (regField x) (nn.extractLsb' 4 4) (nn.extractLsb' 0 4) := by
  apply BitVec.eq_of_toNat_eq
  rw [toNat_formatXNN, toNat_digits]
  simp only [BitVec.extractLsb'_toNat, Nat.shiftRight_eq_div_pow, regField, BitVec.toNat_ofFin]
  have := nn.isLt
  omega

theorem formatX_eq (op : Nibble) (x : Reg) (ff : Byte) : formatX op x ff = formatXNN op x ff := rfl

theorem formatNNN_eq (op : Nibble) (nnn : Addr12) :
    formatNNN op nnn = digits op (nnn.extractLsb' 8 4) (nnn.extractLsb' 4 4) (nnn.extractLsb' 0 4) := by
  apply BitVec.eq_of_toNat_eq
  change (op ++ nnn : BitVec (4 + 12)).toNat = _
  rw [BitVec.toNat_append, ← Nat.shiftLeft_add_eq_or_of_lt nnn.isLt, Nat.shiftLeft_eq, toNat_digits]
  simp only [BitVec.extractLsb'_toNat, Nat.shiftRight_eq_div_pow]
  have := nnn.isLt
  omega

/-! ## The fields of each format -/

@[simp] theorem toFin_regField (x : Reg) : (regField x).toFin = x := rfl

@[simp] theorem opField_formatXYN (op : Nibble) (x y : Reg) (n : Nibble) : opField (formatXYN op x y n) = op := by
  simp [formatXYN_eq]
@[simp] theorem xField_formatXYN (op : Nibble) (x y : Reg) (n : Nibble) : xField (formatXYN op x y n) = x := by
  simp [formatXYN_eq]
@[simp] theorem yField_formatXYN (op : Nibble) (x y : Reg) (n : Nibble) : yField (formatXYN op x y n) = y := by
  simp [formatXYN_eq]
@[simp] theorem nField_formatXYN (op : Nibble) (x y : Reg) (n : Nibble) : nField (formatXYN op x y n) = n := by
  simp [formatXYN_eq]

@[simp] theorem opField_formatXNN (op : Nibble) (x : Reg) (nn : Byte) : opField (formatXNN op x nn) = op := by
  simp [formatXNN_eq]
@[simp] theorem xField_formatXNN (op : Nibble) (x : Reg) (nn : Byte) : xField (formatXNN op x nn) = x := by
  simp [formatXNN_eq]
@[simp] theorem nnField_formatXNN (op : Nibble) (x : Reg) (nn : Byte) : nnField (formatXNN op x nn) = nn := by
  rw [formatXNN_eq, nnField_eq, yDigit_digits, nField_digits, ← byte_eq_append]

@[simp] theorem opField_formatX (op : Nibble) (x : Reg) (ff : Byte) : opField (formatX op x ff) = op :=
  opField_formatXNN op x ff
@[simp] theorem xField_formatX (op : Nibble) (x : Reg) (ff : Byte) : xField (formatX op x ff) = x :=
  xField_formatXNN op x ff
@[simp] theorem nnField_formatX (op : Nibble) (x : Reg) (ff : Byte) : nnField (formatX op x ff) = ff :=
  nnField_formatXNN op x ff

@[simp] theorem opField_formatNNN (op : Nibble) (nnn : Addr12) : opField (formatNNN op nnn) = op := by
  simp [formatNNN_eq]
@[simp] theorem nnnField_formatNNN (op : Nibble) (nnn : Addr12) : nnnField (formatNNN op nnn) = nnn := by
  rw [formatNNN_eq, nnnField_eq, xDigit_digits, yDigit_digits, nField_digits, ← addr_eq_append]

/-! ## A word is each format of its own fields -/

theorem formatXYN_fields (w : Word) : formatXYN (opField w) (xField w) (yField w) (nField w) = w :=
  (eq_digits w).symm

theorem formatXNN_fields (w : Word) : formatXNN (opField w) (xField w) (nnField w) = w := by
  apply BitVec.eq_of_toNat_eq
  rw [toNat_formatXNN, nnField_eq, toNat_append4]
  conv => rhs; rw [eq_digits w, toNat_digits]
  rw [show (xField w).val = (xDigit w).toNat from rfl]
  omega

theorem formatX_fields (w : Word) : formatX (opField w) (xField w) (nnField w) = w := formatXNN_fields w

theorem formatNNN_fields (w : Word) : formatNNN (opField w) (nnnField w) = w := by
  apply BitVec.eq_of_toNat_eq
  change (opField w ++ nnnField w : BitVec (4 + 12)).toNat = _
  rw [BitVec.toNat_append, ← Nat.shiftLeft_add_eq_or_of_lt (nnnField w).isLt, Nat.shiftLeft_eq, nnnField_eq,
    toNat_append4, toNat_append4]
  conv => rhs; rw [eq_digits w, toNat_digits]
  omega

/-! ## Each mask of R48 tests exactly the literal digits of its pattern -/

theorem and_F (a : Nibble) : a &&& 0xF = a := BitVec.and_allOnes

@[simp] theorem and_ofNat_F (a : Nibble) : a &&& 15#4 = a := BitVec.and_allOnes

theorem mask_FFFF (w p : Word) : w &&& 0xFFFF = p ↔ w = p := by
  rw [show (0xFFFF : Word) = BitVec.allOnes 16 by decide, BitVec.and_allOnes]

theorem mask_F000 {w p : Word} (hp : p &&& 0x0FFF = 0) : w &&& 0xF000 = p ↔ opField w = opField p := by
  rw [eq_digits w, eq_digits p] at *
  rw [show (0x0FFF : Word) = digits 0 0xF 0xF 0xF by decide, show (0 : Word) = digits 0 0 0 0 by decide,
    digits_and, digits_inj] at hp
  rw [show (0xF000 : Word) = digits 0xF 0 0 0 by decide, digits_and, digits_inj]
  simp only [and_F] at hp
  simp [hp]

theorem mask_F00F {w p : Word} (hp : p &&& 0x0FF0 = 0) :
    w &&& 0xF00F = p ↔ opField w = opField p ∧ nField w = nField p := by
  rw [eq_digits w, eq_digits p] at *
  rw [show (0x0FF0 : Word) = digits 0 0xF 0xF 0 by decide, show (0 : Word) = digits 0 0 0 0 by decide,
    digits_and, digits_inj] at hp
  rw [show (0xF00F : Word) = digits 0xF 0 0 0xF by decide, digits_and, digits_inj]
  simp only [and_F] at hp
  simp [hp]

theorem nnField_inj {w p : Word} : nnField w = nnField p ↔ yDigit w = yDigit p ∧ nField w = nField p := by
  constructor
  · intro h
    have := congrArg BitVec.toNat h
    rw [nnField_eq, nnField_eq, toNat_append4, toNat_append4] at this
    have := (nField w).isLt; have := (nField p).isLt
    exact ⟨BitVec.eq_of_toNat_eq (by omega), BitVec.eq_of_toNat_eq (by omega)⟩
  · rintro ⟨h, h'⟩; rw [nnField_eq, nnField_eq, h, h']

theorem mask_F0FF {w p : Word} (hp : p &&& 0x0F00 = 0) :
    w &&& 0xF0FF = p ↔ opField w = opField p ∧ nnField w = nnField p := by
  rw [nnField_inj]
  rw [eq_digits w, eq_digits p] at *
  rw [show (0x0F00 : Word) = digits 0 0xF 0 0 by decide, show (0 : Word) = digits 0 0 0 0 by decide,
    digits_and, digits_inj] at hp
  rw [show (0xF0FF : Word) = digits 0xF 0 0xF 0xF by decide, digits_and, digits_inj]
  simp only [and_F] at hp
  simp [hp]

/-- A word decodes to an instruction exactly through a row that selects it. -/
theorem decodeWord_ok {w : Word} {i : Instr} (h : decodeWord w = .ok i) :
    ∃ r ∈ opcodeRows, r.selects w = true ∧ r.build w = i := by
  unfold decodeWord at h
  split at h
  · next r hr => exact ⟨r, List.mem_of_find?_eq_some hr, by simpa using List.find?_some hr, by injection h⟩
  · cases h

/-- A word is rejected exactly when no row selects it, and always as an unrecognized word. -/
theorem decodeWord_error {w : Word} {e : DecodeError} :
    decodeWord w = .error e ↔ e = .unrecognized w ∧ ∀ r ∈ opcodeRows, r.selects w = false := by
  unfold decodeWord
  cases h : opcodeRows.find? (fun r => r.selects w) with
  | some r =>
    constructor
    · intro h; cases h
    · rintro ⟨-, h'⟩
      have := h' r (List.mem_of_find?_eq_some h)
      have h2 : r.selects w = true := by simpa using List.find?_some h
      simp [this] at h2
  | none =>
    rw [List.find?_eq_none] at h
    simp only [Except.error.injEq, Bool.not_eq_true] at h ⊢
    exact ⟨fun h' => ⟨h'.symm, h⟩, fun h' => h'.1.symm⟩

/-- Two bytes make the word whose bytes they are (R34). -/
theorem wordOfBytes_bytesOfWord (w : Word) : wordOfBytes (w.extractLsb' 8 8) (w.extractLsb' 0 8) = w := by
  apply BitVec.eq_of_toNat_eq
  change (w.extractLsb' 8 8 ++ w.extractLsb' 0 8 : BitVec (8 + 8)).toNat = _
  rw [BitVec.toNat_append, ← Nat.shiftLeft_add_eq_or_of_lt (BitVec.isLt _), Nat.shiftLeft_eq]
  simp only [BitVec.extractLsb'_toNat, Nat.shiftRight_eq_div_pow]
  have := w.isLt
  omega

end Sys2Proof
end

