-- ==== Sys2Proof/Laws/Memory.lean ====
section
/-! SUPPORT. The laws of memory: a read after a write, that every operation keeps the canonical form, and that
canonical memories which read alike are equal. -/

namespace Sys2Proof.Machine

@[simp] theorem Mem.read_nil (a : Nat) : Mem.read [] a = resetByte a := rfl

theorem Mem.read_cons (c : Host.Cell) (m : Mem) (a : Nat) :
    Mem.read (c :: m) a = if c.1 = a then c.2 else Mem.read m a := rfl

theorem Mem.read_forget (m : Mem) (a b : Nat) :
    (m.forget a).read b = if b = a then resetByte a else m.read b := by
  induction m with
  | nil => simp only [Mem.forget, List.filter_nil, Mem.read_nil]; split <;> simp_all
  | cons c m ih =>
    have hf : Mem.forget (c :: m) a = if c.1 = a then Mem.forget m a else c :: Mem.forget m a := by
      by_cases h : c.1 = a <;> simp [Mem.forget, h]
    rw [hf, Mem.read_cons]
    by_cases hca : c.1 = a
    · rw [if_pos hca, ih]
      split
      · rfl
      · rw [if_neg (by omega)]
    · rw [if_neg hca, Mem.read_cons, ih]
      split
      · rw [if_neg (by omega)]
      · rfl

theorem Mem.read_insertCell (m : Mem) (a b : Nat) (v : Byte) (h : ∀ c ∈ m, c.1 ≠ a) :
    (m.insertCell a v).read b = if b = a then v else m.read b := by
  induction m with
  | nil => simp [Mem.insertCell, Mem.read, eq_comm]
  | cons c m ih =>
    obtain ⟨d, u⟩ := c
    have hd : d ≠ a := h _ List.mem_cons_self
    have ih' := ih fun c hc => h c (List.mem_cons_of_mem _ hc)
    simp only [Mem.insertCell]
    split
    · simp [Mem.read_cons, eq_comm]
    · rw [Mem.read_cons, ih', Mem.read_cons]
      by_cases hb : b = a
      · simp [hb, hd]
      · simp [hb]

theorem Mem.forget_ne (m : Mem) (a : Nat) : ∀ c ∈ m.forget a, c.1 ≠ a := by
  simp [Mem.forget]

/-- A read after a write gives the value written at that address, and what was there before elsewhere. -/
theorem Mem.read_write (m : Mem) (a b : Nat) (v : Byte) :
    (m.write a v).read b = if b = a then v else m.read b := by
  unfold Mem.write
  split
  · next h => rw [Mem.read_forget, h]
  · rw [Mem.read_insertCell _ _ _ _ (Mem.forget_ne m a), Mem.read_forget]
    split <;> rfl

@[simp] theorem Mem.read_write_self (m : Mem) (a : Nat) (v : Byte) : (m.write a v).read a = v := by
  simp [Mem.read_write]

/-- After storing bytes, the stored range reads as them and every other address as before. -/
theorem Mem.read_writeBytes (m : Mem) (a b : Nat) (bs : List Byte) :
    (m.writeBytes a bs).read b = if a ≤ b ∧ b < a + bs.length then bs.getD (b - a) 0 else m.read b := by
  induction bs generalizing m a with
  | nil => simp [Mem.writeBytes]
  | cons v vs ih =>
    rw [Mem.writeBytes, ih, Mem.read_write, List.length_cons]
    by_cases hb : b = a
    · subst hb; simp
    · by_cases h : a + 1 ≤ b ∧ b < a + 1 + vs.length
      · rw [if_pos h, if_pos (by omega), show b - a = (b - (a + 1)) + 1 by omega, List.getD_cons_succ]
      · rw [if_neg h, if_neg hb, if_neg (by omega)]

theorem Mem.read_writeBytes_outside (m : Mem) (a b : Nat) (bs : List Byte) (h : ¬ (a ≤ b ∧ b < a + bs.length)) :
    (m.writeBytes a bs).read b = m.read b := by
  rw [Mem.read_writeBytes, if_neg h]

@[simp] theorem Mem.length_readBytes (m : Mem) (a n : Nat) : (m.readBytes a n).length = n := by
  induction n generalizing a with
  | zero => rfl
  | succ n ih => simp [Mem.readBytes, ih]

theorem Mem.getD_readBytes (m : Mem) (a n k : Nat) (h : k < n) : (m.readBytes a n).getD k 0 = m.read (a + k) := by
  induction n generalizing a k with
  | zero => omega
  | succ n ih =>
    cases k with
    | zero => rfl
    | succ k => rw [Mem.readBytes, List.getD_cons_succ, ih _ _ (by omega)]; congr 1; omega

/-! ## The canonical form -/

@[simp] theorem Mem.wf_nil : Mem.wf [] := by simp [Mem.wf]

theorem Mem.wf_forget {m : Mem} (h : m.wf) (a : Nat) : (m.forget a).wf :=
  ⟨h.1.filter _, fun c hc => h.2 c (List.mem_filter.1 hc).1⟩

theorem Mem.mem_insertCell {m : Mem} {a : Nat} {v : Byte} {c : Host.Cell} (h : c ∈ m.insertCell a v) :
    c = (a, v) ∨ c ∈ m := by
  induction m with
  | nil => simpa [Mem.insertCell] using h
  | cons d m ih =>
    simp only [Mem.insertCell] at h
    split at h
    · simpa using h
    · rcases List.mem_cons.1 h with rfl | h
      · simp
      · rcases ih h with h | h <;> simp [h]

theorem Mem.wf_insertCell {m : Mem} {a : Nat} {v : Byte} (h : m.wf) (ha : a < Config.memSize)
    (hv : v ≠ resetByte a) (hn : ∀ c ∈ m, c.1 ≠ a) : (m.insertCell a v).wf := by
  refine ⟨?_, fun c hc => ?_⟩
  · obtain ⟨hp, -⟩ := h
    induction m with
    | nil => simp [Mem.insertCell]
    | cons d m ih =>
      rw [List.pairwise_cons] at hp
      simp only [Mem.insertCell]
      split
      · next hlt =>
        refine List.pairwise_cons.2 ⟨fun c hc => ?_, List.pairwise_cons.2 hp⟩
        rcases List.mem_cons.1 hc with rfl | hc
        · exact hlt
        · exact Nat.lt_trans hlt (hp.1 c hc)
      · next hlt =>
        have hd := hn d List.mem_cons_self
        refine List.pairwise_cons.2 ⟨fun c hc => ?_, ih (fun c hc => hn c (List.mem_cons_of_mem _ hc)) hp.2⟩
        rcases Mem.mem_insertCell hc with rfl | hc
        · change d.1 < a; omega
        · exact hp.1 c hc
  · rcases Mem.mem_insertCell hc with rfl | hc
    · exact ⟨ha, hv⟩
    · exact h.2 c hc

theorem Mem.wf_write {m : Mem} (h : m.wf) {a : Nat} (ha : a < Config.memSize) (v : Byte) : (m.write a v).wf := by
  unfold Mem.write
  split
  · exact Mem.wf_forget h a
  · next hv => exact Mem.wf_insertCell (Mem.wf_forget h a) ha hv (Mem.forget_ne m a)

theorem Mem.wf_writeBytes {m : Mem} (h : m.wf) {a : Nat} {bs : List Byte} (ha : a + bs.length ≤ Config.memSize) :
    (m.writeBytes a bs).wf := by
  induction bs generalizing m a with
  | nil => exact h
  | cons v vs ih =>
    rw [List.length_cons] at ha
    exact ih (Mem.wf_write h (by omega) v) (by omega)

/-- A canonical memory lists an address exactly when it reads as something else than its reset contents. -/
theorem Mem.mem_iff_read {m : Mem} (h : m.wf) (a : Nat) (v : Byte) :
    (a, v) ∈ m ↔ m.read a = v ∧ v ≠ resetByte a := by
  induction m with
  | nil => simp [Mem.read]; intro h; simp [h]
  | cons c m ih =>
    obtain ⟨hp, hm⟩ := h
    rw [List.pairwise_cons] at hp
    have ih := ih ⟨hp.2, fun d hd => hm d (List.mem_cons_of_mem _ hd)⟩
    rw [Mem.read_cons, List.mem_cons]
    by_cases hc : c.1 = a
    · have hnot : (a, v) ∉ m := fun h => by have := hp.1 _ h; simp at this; omega
      have hcell := hm c List.mem_cons_self
      rw [if_pos hc]
      constructor
      · rintro (rfl | h)
        · exact ⟨rfl, hcell.2⟩
        · exact absurd h hnot
      · rintro ⟨rfl, -⟩; left; simp [← hc]
    · rw [if_neg hc, ← ih]
      constructor
      · rintro (rfl | h)
        · exact absurd rfl hc
        · exact h
      · exact .inr

end Sys2Proof.Machine
end

