-- ==== Sys2Proof/Laws/State.lean ====
section
/-! SUPPORT. One lemma per field of State for each named update: what the update makes of that field. -/

namespace Sys2Proof.Machine

/-! ## `State.setReg` -/

@[simp] theorem State.setReg_v (s : State) (r : Reg) (b : Byte) : (s.setReg r b).v = s.v.set r.val b := rfl
@[simp] theorem State.setReg_iReg (s : State) (r : Reg) (b : Byte) : (s.setReg r b).iReg = s.iReg := rfl
@[simp] theorem State.setReg_pc (s : State) (r : Reg) (b : Byte) : (s.setReg r b).pc = s.pc := rfl
@[simp] theorem State.setReg_sp (s : State) (r : Reg) (b : Byte) : (s.setReg r b).sp = s.sp := rfl
@[simp] theorem State.setReg_stack (s : State) (r : Reg) (b : Byte) : (s.setReg r b).stack = s.stack := rfl
@[simp] theorem State.setReg_dt (s : State) (r : Reg) (b : Byte) : (s.setReg r b).dt = s.dt := rfl
@[simp] theorem State.setReg_st (s : State) (r : Reg) (b : Byte) : (s.setReg r b).st = s.st := rfl
@[simp] theorem State.setReg_fb (s : State) (r : Reg) (b : Byte) : (s.setReg r b).fb = s.fb := rfl
@[simp] theorem State.setReg_keys (s : State) (r : Reg) (b : Byte) : (s.setReg r b).keys = s.keys := rfl
@[simp] theorem State.setReg_redraw (s : State) (r : Reg) (b : Byte) : (s.setReg r b).redraw = s.redraw := rfl
@[simp] theorem State.setReg_run (s : State) (r : Reg) (b : Byte) : (s.setReg r b).run = s.run := rfl
@[simp] theorem State.setReg_faultCause (s : State) (r : Reg) (b : Byte) : (s.setReg r b).faultCause = s.faultCause := rfl
@[simp] theorem State.setReg_faultPc (s : State) (r : Reg) (b : Byte) : (s.setReg r b).faultPc = s.faultPc := rfl
@[simp] theorem State.setReg_faultWord (s : State) (r : Reg) (b : Byte) : (s.setReg r b).faultWord = s.faultWord := rfl
@[simp] theorem State.setReg_mem (s : State) (r : Reg) (b : Byte) : (s.setReg r b).mem = s.mem := rfl
@[simp] theorem State.setReg_draws (s : State) (r : Reg) (b : Byte) : (s.setReg r b).draws = s.draws := rfl

/-! ## `State.advance` -/

@[simp] theorem State.advance_v (s : State) : (s.advance).v = s.v := rfl
@[simp] theorem State.advance_iReg (s : State) : (s.advance).iReg = s.iReg := rfl
@[simp] theorem State.advance_pc (s : State) : (s.advance).pc = s.pc + 2 := rfl
@[simp] theorem State.advance_sp (s : State) : (s.advance).sp = s.sp := rfl
@[simp] theorem State.advance_stack (s : State) : (s.advance).stack = s.stack := rfl
@[simp] theorem State.advance_dt (s : State) : (s.advance).dt = s.dt := rfl
@[simp] theorem State.advance_st (s : State) : (s.advance).st = s.st := rfl
@[simp] theorem State.advance_fb (s : State) : (s.advance).fb = s.fb := rfl
@[simp] theorem State.advance_keys (s : State) : (s.advance).keys = s.keys := rfl
@[simp] theorem State.advance_redraw (s : State) : (s.advance).redraw = s.redraw := rfl
@[simp] theorem State.advance_run (s : State) : (s.advance).run = s.run := rfl
@[simp] theorem State.advance_faultCause (s : State) : (s.advance).faultCause = s.faultCause := rfl
@[simp] theorem State.advance_faultPc (s : State) : (s.advance).faultPc = s.faultPc := rfl
@[simp] theorem State.advance_faultWord (s : State) : (s.advance).faultWord = s.faultWord := rfl
@[simp] theorem State.advance_mem (s : State) : (s.advance).mem = s.mem := rfl
@[simp] theorem State.advance_draws (s : State) : (s.advance).draws = s.draws := rfl

/-! ## `State.jumpTo` -/

@[simp] theorem State.jumpTo_v (s : State) (t : Word) : (s.jumpTo t).v = s.v := rfl
@[simp] theorem State.jumpTo_iReg (s : State) (t : Word) : (s.jumpTo t).iReg = s.iReg := rfl
@[simp] theorem State.jumpTo_pc (s : State) (t : Word) : (s.jumpTo t).pc = t := rfl
@[simp] theorem State.jumpTo_sp (s : State) (t : Word) : (s.jumpTo t).sp = s.sp := rfl
@[simp] theorem State.jumpTo_stack (s : State) (t : Word) : (s.jumpTo t).stack = s.stack := rfl
@[simp] theorem State.jumpTo_dt (s : State) (t : Word) : (s.jumpTo t).dt = s.dt := rfl
@[simp] theorem State.jumpTo_st (s : State) (t : Word) : (s.jumpTo t).st = s.st := rfl
@[simp] theorem State.jumpTo_fb (s : State) (t : Word) : (s.jumpTo t).fb = s.fb := rfl
@[simp] theorem State.jumpTo_keys (s : State) (t : Word) : (s.jumpTo t).keys = s.keys := rfl
@[simp] theorem State.jumpTo_redraw (s : State) (t : Word) : (s.jumpTo t).redraw = s.redraw := rfl
@[simp] theorem State.jumpTo_run (s : State) (t : Word) : (s.jumpTo t).run = s.run := rfl
@[simp] theorem State.jumpTo_faultCause (s : State) (t : Word) : (s.jumpTo t).faultCause = s.faultCause := rfl
@[simp] theorem State.jumpTo_faultPc (s : State) (t : Word) : (s.jumpTo t).faultPc = s.faultPc := rfl
@[simp] theorem State.jumpTo_faultWord (s : State) (t : Word) : (s.jumpTo t).faultWord = s.faultWord := rfl
@[simp] theorem State.jumpTo_mem (s : State) (t : Word) : (s.jumpTo t).mem = s.mem := rfl
@[simp] theorem State.jumpTo_draws (s : State) (t : Word) : (s.jumpTo t).draws = s.draws := rfl

/-! ## `State.skipIf` -/

@[simp] theorem State.skipIf_v (s : State) (c : Bool) : (s.skipIf c).v = s.v := rfl
@[simp] theorem State.skipIf_iReg (s : State) (c : Bool) : (s.skipIf c).iReg = s.iReg := rfl
@[simp] theorem State.skipIf_pc (s : State) (c : Bool) : (s.skipIf c).pc = s.pc + (if c then 4 else 2) := rfl
@[simp] theorem State.skipIf_sp (s : State) (c : Bool) : (s.skipIf c).sp = s.sp := rfl
@[simp] theorem State.skipIf_stack (s : State) (c : Bool) : (s.skipIf c).stack = s.stack := rfl
@[simp] theorem State.skipIf_dt (s : State) (c : Bool) : (s.skipIf c).dt = s.dt := rfl
@[simp] theorem State.skipIf_st (s : State) (c : Bool) : (s.skipIf c).st = s.st := rfl
@[simp] theorem State.skipIf_fb (s : State) (c : Bool) : (s.skipIf c).fb = s.fb := rfl
@[simp] theorem State.skipIf_keys (s : State) (c : Bool) : (s.skipIf c).keys = s.keys := rfl
@[simp] theorem State.skipIf_redraw (s : State) (c : Bool) : (s.skipIf c).redraw = s.redraw := rfl
@[simp] theorem State.skipIf_run (s : State) (c : Bool) : (s.skipIf c).run = s.run := rfl
@[simp] theorem State.skipIf_faultCause (s : State) (c : Bool) : (s.skipIf c).faultCause = s.faultCause := rfl
@[simp] theorem State.skipIf_faultPc (s : State) (c : Bool) : (s.skipIf c).faultPc = s.faultPc := rfl
@[simp] theorem State.skipIf_faultWord (s : State) (c : Bool) : (s.skipIf c).faultWord = s.faultWord := rfl
@[simp] theorem State.skipIf_mem (s : State) (c : Bool) : (s.skipIf c).mem = s.mem := rfl
@[simp] theorem State.skipIf_draws (s : State) (c : Bool) : (s.skipIf c).draws = s.draws := rfl

/-! ## `State.display` -/

@[simp] theorem State.display_v (s : State) (fb : Framebuffer) : (s.display fb).v = s.v := rfl
@[simp] theorem State.display_iReg (s : State) (fb : Framebuffer) : (s.display fb).iReg = s.iReg := rfl
@[simp] theorem State.display_pc (s : State) (fb : Framebuffer) : (s.display fb).pc = s.pc := rfl
@[simp] theorem State.display_sp (s : State) (fb : Framebuffer) : (s.display fb).sp = s.sp := rfl
@[simp] theorem State.display_stack (s : State) (fb : Framebuffer) : (s.display fb).stack = s.stack := rfl
@[simp] theorem State.display_dt (s : State) (fb : Framebuffer) : (s.display fb).dt = s.dt := rfl
@[simp] theorem State.display_st (s : State) (fb : Framebuffer) : (s.display fb).st = s.st := rfl
@[simp] theorem State.display_fb (s : State) (fb : Framebuffer) : (s.display fb).fb = fb := rfl
@[simp] theorem State.display_keys (s : State) (fb : Framebuffer) : (s.display fb).keys = s.keys := rfl
@[simp] theorem State.display_redraw (s : State) (fb : Framebuffer) : (s.display fb).redraw = true := rfl
@[simp] theorem State.display_run (s : State) (fb : Framebuffer) : (s.display fb).run = s.run := rfl
@[simp] theorem State.display_faultCause (s : State) (fb : Framebuffer) : (s.display fb).faultCause = s.faultCause := rfl
@[simp] theorem State.display_faultPc (s : State) (fb : Framebuffer) : (s.display fb).faultPc = s.faultPc := rfl
@[simp] theorem State.display_faultWord (s : State) (fb : Framebuffer) : (s.display fb).faultWord = s.faultWord := rfl
@[simp] theorem State.display_mem (s : State) (fb : Framebuffer) : (s.display fb).mem = s.mem := rfl
@[simp] theorem State.display_draws (s : State) (fb : Framebuffer) : (s.display fb).draws = s.draws := rfl

/-! ## `State.writeReg` -/

@[simp] theorem State.writeReg_v (s : State) (x : Reg) (b : Byte) : (s.writeReg x b).v = s.v.set x.val b := rfl
@[simp] theorem State.writeReg_iReg (s : State) (x : Reg) (b : Byte) : (s.writeReg x b).iReg = s.iReg := rfl
@[simp] theorem State.writeReg_pc (s : State) (x : Reg) (b : Byte) : (s.writeReg x b).pc = s.pc + 2 := rfl
@[simp] theorem State.writeReg_sp (s : State) (x : Reg) (b : Byte) : (s.writeReg x b).sp = s.sp := rfl
@[simp] theorem State.writeReg_stack (s : State) (x : Reg) (b : Byte) : (s.writeReg x b).stack = s.stack := rfl
@[simp] theorem State.writeReg_dt (s : State) (x : Reg) (b : Byte) : (s.writeReg x b).dt = s.dt := rfl
@[simp] theorem State.writeReg_st (s : State) (x : Reg) (b : Byte) : (s.writeReg x b).st = s.st := rfl
@[simp] theorem State.writeReg_fb (s : State) (x : Reg) (b : Byte) : (s.writeReg x b).fb = s.fb := rfl
@[simp] theorem State.writeReg_keys (s : State) (x : Reg) (b : Byte) : (s.writeReg x b).keys = s.keys := rfl
@[simp] theorem State.writeReg_redraw (s : State) (x : Reg) (b : Byte) : (s.writeReg x b).redraw = s.redraw := rfl
@[simp] theorem State.writeReg_run (s : State) (x : Reg) (b : Byte) : (s.writeReg x b).run = s.run := rfl
@[simp] theorem State.writeReg_faultCause (s : State) (x : Reg) (b : Byte) : (s.writeReg x b).faultCause = s.faultCause := rfl
@[simp] theorem State.writeReg_faultPc (s : State) (x : Reg) (b : Byte) : (s.writeReg x b).faultPc = s.faultPc := rfl
@[simp] theorem State.writeReg_faultWord (s : State) (x : Reg) (b : Byte) : (s.writeReg x b).faultWord = s.faultWord := rfl
@[simp] theorem State.writeReg_mem (s : State) (x : Reg) (b : Byte) : (s.writeReg x b).mem = s.mem := rfl
@[simp] theorem State.writeReg_draws (s : State) (x : Reg) (b : Byte) : (s.writeReg x b).draws = s.draws := rfl

/-! ## `State.writeFlagThenReg` -/

@[simp] theorem State.writeFlagThenReg_v (s : State) (x : Reg) (b : Byte) (f : Bool) : (s.writeFlagThenReg x b f).v = (s.v.set flagReg.val (flagByte f)).set x.val b := rfl
@[simp] theorem State.writeFlagThenReg_iReg (s : State) (x : Reg) (b : Byte) (f : Bool) : (s.writeFlagThenReg x b f).iReg = s.iReg := rfl
@[simp] theorem State.writeFlagThenReg_pc (s : State) (x : Reg) (b : Byte) (f : Bool) : (s.writeFlagThenReg x b f).pc = s.pc + 2 := rfl
@[simp] theorem State.writeFlagThenReg_sp (s : State) (x : Reg) (b : Byte) (f : Bool) : (s.writeFlagThenReg x b f).sp = s.sp := rfl
@[simp] theorem State.writeFlagThenReg_stack (s : State) (x : Reg) (b : Byte) (f : Bool) : (s.writeFlagThenReg x b f).stack = s.stack := rfl
@[simp] theorem State.writeFlagThenReg_dt (s : State) (x : Reg) (b : Byte) (f : Bool) : (s.writeFlagThenReg x b f).dt = s.dt := rfl
@[simp] theorem State.writeFlagThenReg_st (s : State) (x : Reg) (b : Byte) (f : Bool) : (s.writeFlagThenReg x b f).st = s.st := rfl
@[simp] theorem State.writeFlagThenReg_fb (s : State) (x : Reg) (b : Byte) (f : Bool) : (s.writeFlagThenReg x b f).fb = s.fb := rfl
@[simp] theorem State.writeFlagThenReg_keys (s : State) (x : Reg) (b : Byte) (f : Bool) : (s.writeFlagThenReg x b f).keys = s.keys := rfl
@[simp] theorem State.writeFlagThenReg_redraw (s : State) (x : Reg) (b : Byte) (f : Bool) : (s.writeFlagThenReg x b f).redraw = s.redraw := rfl
@[simp] theorem State.writeFlagThenReg_run (s : State) (x : Reg) (b : Byte) (f : Bool) : (s.writeFlagThenReg x b f).run = s.run := rfl
@[simp] theorem State.writeFlagThenReg_faultCause (s : State) (x : Reg) (b : Byte) (f : Bool) : (s.writeFlagThenReg x b f).faultCause = s.faultCause := rfl
@[simp] theorem State.writeFlagThenReg_faultPc (s : State) (x : Reg) (b : Byte) (f : Bool) : (s.writeFlagThenReg x b f).faultPc = s.faultPc := rfl
@[simp] theorem State.writeFlagThenReg_faultWord (s : State) (x : Reg) (b : Byte) (f : Bool) : (s.writeFlagThenReg x b f).faultWord = s.faultWord := rfl
@[simp] theorem State.writeFlagThenReg_mem (s : State) (x : Reg) (b : Byte) (f : Bool) : (s.writeFlagThenReg x b f).mem = s.mem := rfl
@[simp] theorem State.writeFlagThenReg_draws (s : State) (x : Reg) (b : Byte) (f : Bool) : (s.writeFlagThenReg x b f).draws = s.draws := rfl

/-! ## `State.writeI` -/

@[simp] theorem State.writeI_v (s : State) (a : Word) : (s.writeI a).v = s.v := rfl
@[simp] theorem State.writeI_iReg (s : State) (a : Word) : (s.writeI a).iReg = a := rfl
@[simp] theorem State.writeI_pc (s : State) (a : Word) : (s.writeI a).pc = s.pc + 2 := rfl
@[simp] theorem State.writeI_sp (s : State) (a : Word) : (s.writeI a).sp = s.sp := rfl
@[simp] theorem State.writeI_stack (s : State) (a : Word) : (s.writeI a).stack = s.stack := rfl
@[simp] theorem State.writeI_dt (s : State) (a : Word) : (s.writeI a).dt = s.dt := rfl
@[simp] theorem State.writeI_st (s : State) (a : Word) : (s.writeI a).st = s.st := rfl
@[simp] theorem State.writeI_fb (s : State) (a : Word) : (s.writeI a).fb = s.fb := rfl
@[simp] theorem State.writeI_keys (s : State) (a : Word) : (s.writeI a).keys = s.keys := rfl
@[simp] theorem State.writeI_redraw (s : State) (a : Word) : (s.writeI a).redraw = s.redraw := rfl
@[simp] theorem State.writeI_run (s : State) (a : Word) : (s.writeI a).run = s.run := rfl
@[simp] theorem State.writeI_faultCause (s : State) (a : Word) : (s.writeI a).faultCause = s.faultCause := rfl
@[simp] theorem State.writeI_faultPc (s : State) (a : Word) : (s.writeI a).faultPc = s.faultPc := rfl
@[simp] theorem State.writeI_faultWord (s : State) (a : Word) : (s.writeI a).faultWord = s.faultWord := rfl
@[simp] theorem State.writeI_mem (s : State) (a : Word) : (s.writeI a).mem = s.mem := rfl
@[simp] theorem State.writeI_draws (s : State) (a : Word) : (s.writeI a).draws = s.draws := rfl

/-! ## `raiseFault` -/

@[simp] theorem raiseFault_v (c : FaultCause) (w : Word) (s : State) : (raiseFault c w s).v = s.v := rfl
@[simp] theorem raiseFault_iReg (c : FaultCause) (w : Word) (s : State) : (raiseFault c w s).iReg = s.iReg := rfl
@[simp] theorem raiseFault_pc (c : FaultCause) (w : Word) (s : State) : (raiseFault c w s).pc = s.pc := rfl
@[simp] theorem raiseFault_sp (c : FaultCause) (w : Word) (s : State) : (raiseFault c w s).sp = s.sp := rfl
@[simp] theorem raiseFault_stack (c : FaultCause) (w : Word) (s : State) : (raiseFault c w s).stack = s.stack := rfl
@[simp] theorem raiseFault_dt (c : FaultCause) (w : Word) (s : State) : (raiseFault c w s).dt = s.dt := rfl
@[simp] theorem raiseFault_st (c : FaultCause) (w : Word) (s : State) : (raiseFault c w s).st = s.st := rfl
@[simp] theorem raiseFault_fb (c : FaultCause) (w : Word) (s : State) : (raiseFault c w s).fb = s.fb := rfl
@[simp] theorem raiseFault_keys (c : FaultCause) (w : Word) (s : State) : (raiseFault c w s).keys = s.keys := rfl
@[simp] theorem raiseFault_redraw (c : FaultCause) (w : Word) (s : State) : (raiseFault c w s).redraw = s.redraw := rfl
@[simp] theorem raiseFault_run (c : FaultCause) (w : Word) (s : State) : (raiseFault c w s).run = .faulted := rfl
@[simp] theorem raiseFault_faultCause (c : FaultCause) (w : Word) (s : State) : (raiseFault c w s).faultCause = c := rfl
@[simp] theorem raiseFault_faultPc (c : FaultCause) (w : Word) (s : State) : (raiseFault c w s).faultPc = s.pc := rfl
@[simp] theorem raiseFault_faultWord (c : FaultCause) (w : Word) (s : State) : (raiseFault c w s).faultWord = w := rfl
@[simp] theorem raiseFault_mem (c : FaultCause) (w : Word) (s : State) : (raiseFault c w s).mem = s.mem := rfl
@[simp] theorem raiseFault_draws (c : FaultCause) (w : Word) (s : State) : (raiseFault c w s).draws = s.draws := rfl

/-! ## `timerPhase` -/

@[simp] theorem timerPhase_v (s : State) : (timerPhase s).v = s.v := rfl
@[simp] theorem timerPhase_iReg (s : State) : (timerPhase s).iReg = s.iReg := rfl
@[simp] theorem timerPhase_pc (s : State) : (timerPhase s).pc = s.pc := rfl
@[simp] theorem timerPhase_sp (s : State) : (timerPhase s).sp = s.sp := rfl
@[simp] theorem timerPhase_stack (s : State) : (timerPhase s).stack = s.stack := rfl
@[simp] theorem timerPhase_dt (s : State) : (timerPhase s).dt = tick s.dt := rfl
@[simp] theorem timerPhase_st (s : State) : (timerPhase s).st = tick s.st := rfl
@[simp] theorem timerPhase_fb (s : State) : (timerPhase s).fb = s.fb := rfl
@[simp] theorem timerPhase_keys (s : State) : (timerPhase s).keys = s.keys := rfl
@[simp] theorem timerPhase_redraw (s : State) : (timerPhase s).redraw = s.redraw := rfl
@[simp] theorem timerPhase_run (s : State) : (timerPhase s).run = s.run := rfl
@[simp] theorem timerPhase_faultCause (s : State) : (timerPhase s).faultCause = s.faultCause := rfl
@[simp] theorem timerPhase_faultPc (s : State) : (timerPhase s).faultPc = s.faultPc := rfl
@[simp] theorem timerPhase_faultWord (s : State) : (timerPhase s).faultWord = s.faultWord := rfl
@[simp] theorem timerPhase_mem (s : State) : (timerPhase s).mem = s.mem := rfl
@[simp] theorem timerPhase_draws (s : State) : (timerPhase s).draws = s.draws := rfl

/-! ## `setKey` -/

@[simp] theorem setKey_v (s : State) (k : Reg) (p : Bool) : (setKey s k p).v = s.v := rfl
@[simp] theorem setKey_iReg (s : State) (k : Reg) (p : Bool) : (setKey s k p).iReg = s.iReg := rfl
@[simp] theorem setKey_pc (s : State) (k : Reg) (p : Bool) : (setKey s k p).pc = s.pc := rfl
@[simp] theorem setKey_sp (s : State) (k : Reg) (p : Bool) : (setKey s k p).sp = s.sp := rfl
@[simp] theorem setKey_stack (s : State) (k : Reg) (p : Bool) : (setKey s k p).stack = s.stack := rfl
@[simp] theorem setKey_dt (s : State) (k : Reg) (p : Bool) : (setKey s k p).dt = s.dt := rfl
@[simp] theorem setKey_st (s : State) (k : Reg) (p : Bool) : (setKey s k p).st = s.st := rfl
@[simp] theorem setKey_fb (s : State) (k : Reg) (p : Bool) : (setKey s k p).fb = s.fb := rfl
@[simp] theorem setKey_keys (s : State) (k : Reg) (p : Bool) : (setKey s k p).keys = s.keys.set k.val p := rfl
@[simp] theorem setKey_redraw (s : State) (k : Reg) (p : Bool) : (setKey s k p).redraw = s.redraw := rfl
@[simp] theorem setKey_run (s : State) (k : Reg) (p : Bool) : (setKey s k p).run = s.run := rfl
@[simp] theorem setKey_faultCause (s : State) (k : Reg) (p : Bool) : (setKey s k p).faultCause = s.faultCause := rfl
@[simp] theorem setKey_faultPc (s : State) (k : Reg) (p : Bool) : (setKey s k p).faultPc = s.faultPc := rfl
@[simp] theorem setKey_faultWord (s : State) (k : Reg) (p : Bool) : (setKey s k p).faultWord = s.faultWord := rfl
@[simp] theorem setKey_mem (s : State) (k : Reg) (p : Bool) : (setKey s k p).mem = s.mem := rfl
@[simp] theorem setKey_draws (s : State) (k : Reg) (p : Bool) : (setKey s k p).draws = s.draws := rfl

/-! ## `clearRedraw` -/

@[simp] theorem clearRedraw_v (s : State) : (clearRedraw s).v = s.v := rfl
@[simp] theorem clearRedraw_iReg (s : State) : (clearRedraw s).iReg = s.iReg := rfl
@[simp] theorem clearRedraw_pc (s : State) : (clearRedraw s).pc = s.pc := rfl
@[simp] theorem clearRedraw_sp (s : State) : (clearRedraw s).sp = s.sp := rfl
@[simp] theorem clearRedraw_stack (s : State) : (clearRedraw s).stack = s.stack := rfl
@[simp] theorem clearRedraw_dt (s : State) : (clearRedraw s).dt = s.dt := rfl
@[simp] theorem clearRedraw_st (s : State) : (clearRedraw s).st = s.st := rfl
@[simp] theorem clearRedraw_fb (s : State) : (clearRedraw s).fb = s.fb := rfl
@[simp] theorem clearRedraw_keys (s : State) : (clearRedraw s).keys = s.keys := rfl
@[simp] theorem clearRedraw_redraw (s : State) : (clearRedraw s).redraw = false := rfl
@[simp] theorem clearRedraw_run (s : State) : (clearRedraw s).run = s.run := rfl
@[simp] theorem clearRedraw_faultCause (s : State) : (clearRedraw s).faultCause = s.faultCause := rfl
@[simp] theorem clearRedraw_faultPc (s : State) : (clearRedraw s).faultPc = s.faultPc := rfl
@[simp] theorem clearRedraw_faultWord (s : State) : (clearRedraw s).faultWord = s.faultWord := rfl
@[simp] theorem clearRedraw_mem (s : State) : (clearRedraw s).mem = s.mem := rfl
@[simp] theorem clearRedraw_draws (s : State) : (clearRedraw s).draws = s.draws := rfl

/-! ## `loadProgram` -/

@[simp] theorem loadProgram_v (s : State) (bs : List Byte) : (loadProgram s bs).v = s.v := rfl
@[simp] theorem loadProgram_iReg (s : State) (bs : List Byte) : (loadProgram s bs).iReg = s.iReg := rfl
@[simp] theorem loadProgram_pc (s : State) (bs : List Byte) : (loadProgram s bs).pc = s.pc := rfl
@[simp] theorem loadProgram_sp (s : State) (bs : List Byte) : (loadProgram s bs).sp = s.sp := rfl
@[simp] theorem loadProgram_stack (s : State) (bs : List Byte) : (loadProgram s bs).stack = s.stack := rfl
@[simp] theorem loadProgram_dt (s : State) (bs : List Byte) : (loadProgram s bs).dt = s.dt := rfl
@[simp] theorem loadProgram_st (s : State) (bs : List Byte) : (loadProgram s bs).st = s.st := rfl
@[simp] theorem loadProgram_fb (s : State) (bs : List Byte) : (loadProgram s bs).fb = s.fb := rfl
@[simp] theorem loadProgram_keys (s : State) (bs : List Byte) : (loadProgram s bs).keys = s.keys := rfl
@[simp] theorem loadProgram_redraw (s : State) (bs : List Byte) : (loadProgram s bs).redraw = s.redraw := rfl
@[simp] theorem loadProgram_run (s : State) (bs : List Byte) : (loadProgram s bs).run = s.run := rfl
@[simp] theorem loadProgram_faultCause (s : State) (bs : List Byte) : (loadProgram s bs).faultCause = s.faultCause := rfl
@[simp] theorem loadProgram_faultPc (s : State) (bs : List Byte) : (loadProgram s bs).faultPc = s.faultPc := rfl
@[simp] theorem loadProgram_faultWord (s : State) (bs : List Byte) : (loadProgram s bs).faultWord = s.faultWord := rfl
@[simp] theorem loadProgram_mem (s : State) (bs : List Byte) : (loadProgram s bs).mem = s.mem.writeBytes Config.progBase bs := rfl
@[simp] theorem loadProgram_draws (s : State) (bs : List Byte) : (loadProgram s bs).draws = s.draws := rfl

end Sys2Proof.Machine
end

