-- ==== Sys2Proof/Laws/Operands.lean ====
section
/-! SUPPORT. The laws of the operand forms: register reads after register writes, the bulk forms of FX55 and FX65,
the decimal digits of FX33, the key scan of FX0A. -/

namespace Sys2Proof.Machine

/-! ## Registers -/

theorem State.reg_setReg (s : State) (r q : Reg) (b : Byte) :
    (s.setReg r b).reg q = if q = r then b else s.reg q := by
  simp only [State.reg, State.setReg_v, Vector.getElem_set, Fin.ext_iff, eq_comm]

@[simp] theorem flagReg_eq : flagReg = 0xF := rfl

@[simp] theorem State.reg_setReg_self (s : State) (r : Reg) (b : Byte) : (s.setReg r b).reg r = b := by
  simp [State.reg_setReg]

theorem State.reg_setReg_of_ne (s : State) {r q : Reg} (b : Byte) (h : q ≠ r) : (s.setReg r b).reg q = s.reg q := by
  simp [State.reg_setReg, h]

@[simp] theorem State.reg_advance (s : State) (q : Reg) : s.advance.reg q = s.reg q := rfl
@[simp] theorem State.reg_jumpTo (s : State) (t : Word) (q : Reg) : (s.jumpTo t).reg q = s.reg q := rfl
@[simp] theorem State.reg_skipIf (s : State) (c : Bool) (q : Reg) : (s.skipIf c).reg q = s.reg q := rfl
@[simp] theorem State.reg_display (s : State) (fb : Framebuffer) (q : Reg) : (s.display fb).reg q = s.reg q := rfl
@[simp] theorem State.reg_writeI (s : State) (a : Word) (q : Reg) : (s.writeI a).reg q = s.reg q := rfl
@[simp] theorem reg_raiseFault (c : FaultCause) (w : Word) (s : State) (q : Reg) :
    (raiseFault c w s).reg q = s.reg q := rfl
@[simp] theorem reg_timerPhase (s : State) (q : Reg) : (timerPhase s).reg q = s.reg q := rfl

theorem State.reg_writeReg (s : State) (x q : Reg) (b : Byte) :
    (s.writeReg x b).reg q = if q = x then b else s.reg q := State.reg_setReg s x q b

/-- The flag is written first, so the result stands when both aim at `V[0xF]` (R72). -/
theorem State.reg_writeFlagThenReg (s : State) (x q : Reg) (b : Byte) (f : Bool) :
    (s.writeFlagThenReg x b f).reg q =
      if q = x then b else if q = flagReg then flagByte f else s.reg q := by
  rw [State.writeFlagThenReg, State.reg_advance, State.reg_setReg, State.reg_setReg]

/-! ## FX65: loading registers -/

theorem loadRegs_frame (s : State) (k : Nat) (bs : List Byte) :
    loadRegs s k bs = { s with v := (loadRegs s k bs).v } := by
  induction bs generalizing s k with
  | nil => rfl
  | cons b bs ih =>
    rw [loadRegs, ih]
    split <;> rfl

theorem reg_loadRegs (s : State) (k : Nat) (bs : List Byte) (q : Reg) :
    (loadRegs s k bs).reg q = if k ≤ q.val ∧ q.val < k + bs.length then bs.getD (q.val - k) 0 else s.reg q := by
  induction bs generalizing s k with
  | nil => simp [loadRegs]
  | cons b bs ih =>
    rw [loadRegs, ih, List.length_cons]
    by_cases hq : q.val = k
    · have hk : k < 16 := hq ▸ q.isLt
      rw [if_neg (by omega), if_pos (by omega), dif_pos hk, hq, Nat.sub_self]
      rw [State.reg_setReg, if_pos (Fin.ext hq)]; rfl
    · by_cases h : k + 1 ≤ q.val ∧ q.val < k + 1 + bs.length
      · rw [if_pos h, if_pos (by omega), show q.val - k = (q.val - (k + 1)) + 1 by omega, List.getD_cons_succ]
      · rw [if_neg h, if_neg (by omega)]
        split
        · rw [State.reg_setReg, if_neg (fun h => hq (by rw [h]))]
        · rfl

/-! ## FX55: the registers stored -/

@[simp] theorem length_regsUpTo (s : State) (x : Reg) : (regsUpTo s x).length = x.val + 1 := by
  simp [regsUpTo, List.length_take, List.length_finRange]

theorem getD_regsUpTo (s : State) (x q : Reg) (h : q.val ≤ x.val) : (regsUpTo s x).getD q.val 0 = s.reg q := by
  have hx : q.val < x.val + 1 := by omega
  simp [regsUpTo, List.getD_eq_getElem?_getD, hx]

@[simp] theorem length_decimalDigits (b : Byte) : (decimalDigits b).length = 3 := by simp [decimalDigits]

/-! ## FX0A: the key scan -/

theorem highestKeyDown_none {s : State} : highestKeyDown s = none ↔ ∀ k : Reg, s.keys[k.val] = false := by
  simp [highestKeyDown, List.find?_eq_none]

theorem key_of_highestKeyDown {s : State} {k : Reg} (h : highestKeyDown s = some k) :
    s.keys[k.val] = true ∧ ∀ j : Reg, k < j → s.keys[j.val] = false := by
  rw [highestKeyDown, List.find?_eq_some_iff_append] at h
  obtain ⟨hk, as, bs, hl, has⟩ := h
  refine ⟨by simpa using hk, fun j hj => ?_⟩
  have hsorted : ((List.finRange 16).reverse).Pairwise (fun a b => b < a) := by decide
  have hmem : j ∈ (List.finRange 16).reverse := by simp
  rw [hl] at hsorted hmem
  rcases List.mem_append.1 hmem with hj' | hj'
  · simpa using has j hj'
  · rcases List.mem_cons.1 hj' with rfl | hj'
    · exact absurd hj (lt_irrefl _)
    · have := (List.pairwise_append.1 hsorted).2.1
      rw [List.pairwise_cons] at this
      exact absurd hj (lt_asymm (this.1 j hj'))

/-- The scan finds exactly the highest key down (R101). -/
theorem highestKeyDown_some {s : State} {k : Reg} :
    highestKeyDown s = some k ↔ s.keys[k.val] = true ∧ ∀ j : Reg, k < j → s.keys[j.val] = false := by
  refine ⟨key_of_highestKeyDown, fun ⟨hk, hj⟩ => ?_⟩
  cases h : highestKeyDown s with
  | none => simp [highestKeyDown_none.1 h k] at hk
  | some k' =>
    obtain ⟨hk', hj'⟩ := key_of_highestKeyDown h
    rcases lt_trichotomy k k' with hlt | rfl | hlt
    · simp [hj k' hlt] at hk'
    · rfl
    · simp [hj' k hlt] at hk

/-! ## Immediates and addresses: every zero extension is exact -/

@[simp] theorem toNat_zext8 (b : Byte) : (zext8 b).toNat = b.toNat := by
  rw [zext8, BitVec.toNat_setWidth, Nat.mod_eq_of_lt (by have := b.isLt; omega)]

@[simp] theorem toNat_zext12 (nnn : Addr12) : (zext12 nnn).toNat = nnn.toNat := by
  rw [zext12, BitVec.toNat_setWidth, Nat.mod_eq_of_lt (by have := nnn.isLt; omega)]

/-- The target of BNNN is the exact sum: it never wraps (R71). -/
theorem toNat_offsetTarget (s : State) (nnn : Addr12) :
    (offsetTarget s nnn).toNat = nnn.toNat + (s.reg 0).toNat := by
  rw [offsetTarget, BitVec.toNat_add, toNat_zext12, toNat_zext8]
  have := nnn.isLt
  have := (s.reg 0).isLt
  omega

/-- The glyph address of FX29 is the exact product (R88). -/
theorem toNat_glyphAddr (b : Byte) : (glyphAddr b).toNat = b.toNat * 5 := by
  rw [glyphAddr, BitVec.toNat_mul, toNat_zext8, Nat.mod_eq_of_lt (by have := b.isLt; simp; omega)]
  rfl

end Sys2Proof.Machine
end

