-- ==== Sys2Proof/Laws/Ops.lean ====
section
/-! SUPPORT. The laws of the shared operations: for each, one lemma that says everything it can do. -/

namespace Sys2Proof.Machine

/-! ## Memory -/

theorem accessOk_iff {a n : Nat} : accessOk a n = true ↔ n = 0 ∨ a + n ≤ 4096 := by
  simp [accessOk]

/-- Reading `n` bytes: all of them, or a `DATA_BOUNDS` fault. -/
theorem memRead_eq (s : State) (a n : Nat) :
    memRead s a n = if n = 0 ∨ a + n ≤ 4096 then .ok (s.mem.readBytes a n) else .error .dataBounds := by
  simp only [memRead, accessOk_iff]

/-- Storing bytes: all of them, or a `DATA_BOUNDS` fault. -/
theorem memWrite_eq (s : State) (a : Nat) (bs : List Byte) :
    memWrite s a bs = if bs.length = 0 ∨ a + bs.length ≤ 4096 then .ok { s with mem := s.mem.writeBytes a bs }
      else .error .dataBounds := by
  simp only [memWrite, accessOk_iff]

theorem memRead_ok (s : State) {a n : Nat} (h : n = 0 ∨ a + n ≤ 4096) : memRead s a n = .ok (s.mem.readBytes a n) := by
  rw [memRead_eq, if_pos h]

theorem memRead_error (s : State) {a n : Nat} (h : n ≠ 0 ∧ 4096 < a + n) : memRead s a n = .error .dataBounds := by
  rw [memRead_eq, if_neg (by omega)]

theorem memWrite_ok (s : State) {a : Nat} {bs : List Byte} (h : bs.length = 0 ∨ a + bs.length ≤ 4096) :
    memWrite s a bs = .ok { s with mem := s.mem.writeBytes a bs } := by
  rw [memWrite_eq, if_pos h]

theorem memWrite_error (s : State) {a : Nat} {bs : List Byte} (h : bs.length ≠ 0 ∧ 4096 < a + bs.length) :
    memWrite s a bs = .error .dataBounds := by
  rw [memWrite_eq, if_neg (by omega)]

/-- A byte read after a store is the stored one where the store covered it, else the old one. -/
theorem Mem.read_writeBytes_eq_byteAfterStore (m : Mem) (base a : Nat) (bytes : List Byte) :
    (m.writeBytes base bytes).read a = byteAfterStore m base bytes a := Mem.read_writeBytes m base a bytes

/-! ## The call stack -/

/-- A push that succeeds wrote the entry at the old `SP` and counted it, and nothing else. -/
theorem pushReturn_ok {s t : State} {a : Word} (h : pushReturn s a = .ok t) :
    ∃ hs : s.sp.val < 16, t = { s with stack := s.stack.set s.sp.val a, sp := ⟨s.sp.val + 1, Nat.succ_lt_succ hs⟩ } := by
  unfold pushReturn at h
  split at h
  · next hs => exact ⟨hs, by injection h with h; exact h.symm⟩
  · cases h

theorem pushReturn_error {s : State} {a : Word} {c : FaultCause} (h : pushReturn s a = .error c) :
    s.sp.val = 16 ∧ c = .stackOverflow := by
  unfold pushReturn at h
  split at h
  · cases h
  · injection h with h
    exact ⟨by have := s.sp.isLt; omega, h.symm⟩

/-- A pop that succeeds lowered `SP` by one and answered the entry there, and nothing else. -/
theorem popReturn_ok {s : State} {p : State × Word} (h : popReturn s = .ok p) :
    s.sp.val ≠ 0 ∧ p = ({ s with sp := ⟨s.sp.val - 1, by omega⟩ }, s.stack[s.sp.val - 1]) := by
  unfold popReturn at h
  split at h
  · cases h
  · next h0 => exact ⟨h0, by injection h with h; exact h.symm⟩

theorem popReturn_error {s : State} {c : FaultCause} (h : popReturn s = .error c) :
    s.sp.val = 0 ∧ c = .stackUnderflow := by
  unfold popReturn at h
  split at h
  · next hs => injection h with h; exact ⟨hs, h.symm⟩
  · cases h

/-! ## The keys -/

theorem keyDown_ok {s : State} {k : Byte} (h : k.toNat < 16) : keyDown s k = .ok s.keys[k.toNat] := by
  simp [keyDown, h]

theorem keyDown_error {s : State} {k : Byte} (h : 15 < k.toNat) : keyDown s k = .error .keyRange := by
  rw [keyDown, dif_neg (by omega)]

/-! ## The framebuffer -/

theorem Framebuffer.pixel_setPixel (fb : Framebuffer) (x y x' y' : Nat) (b : Bool) (h : x < 64 ∧ y < 32) :
    (fb.setPixel x y b).pixel x' y' = if x' = x ∧ y' = y then b else fb.pixel x' y' := by
  unfold Framebuffer.setPixel Framebuffer.pixel
  rw [dif_pos h]
  by_cases h' : x' < 64 ∧ y' < 32
  · simp only [dif_pos h', Vector.getElem_set]
    by_cases hy : y = y'
    · subst hy
      by_cases hx : x = x'
      · subst hx; simp
      · simp [hx, Ne.symm hx]
    · simp [hy, Ne.symm hy]
  · rw [dif_neg h', dif_neg h', if_neg (by rintro ⟨rfl, rfl⟩; exact h' h)]

@[simp] theorem Framebuffer.pixel_clear (x y : Nat) : clearFramebuffer.pixel x y = false := by
  simp [Framebuffer.pixel, clearFramebuffer]

/-- Framebuffers with the same pixels are the same. -/
theorem Framebuffer.ext {fb fb' : Framebuffer} (h : ∀ x y, x < 64 → y < 32 → fb.pixel x y = fb'.pixel x y) :
    fb = fb' := by
  refine Vector.ext fun y hy => Vector.ext fun x hx => ?_
  have := h x y hx hy
  simpa [Framebuffer.pixel, hx, hy] using this

/-- A blit: every target inside and each toggled, or an `FB_RANGE` fault. -/
theorem blit_eq (fb : Framebuffer) (x0 y0 : Nat) (bytes : List Byte) :
    blit fb x0 y0 bytes =
      if ∀ p ∈ spriteTargets x0 y0 bytes, p.1 < 64 ∧ p.2 < 32
      then .ok ((spriteTargets x0 y0 bytes).foldl blitPixel (false, fb)) else .error .fbRange := by
  have h : (spriteTargets x0 y0 bytes).all inFramebuffer = true ↔
      ∀ p ∈ spriteTargets x0 y0 bytes, p.1 < 64 ∧ p.2 < 32 := by
    simp only [List.all_eq_true, inFramebuffer, Bool.and_eq_true, decide_eq_true_eq]
  simp only [blit, h]

theorem mem_setColumns {b : Byte} {c : Nat} : c ∈ setColumns b ↔ c < 8 ∧ b.getLsbD (7 - c) = true := by
  simp [setColumns]

/-- The targets of a sprite are exactly the pixels its set bits name (R94). -/
theorem mem_spriteTargets {x0 y0 : Nat} {bs : List Byte} {p : Nat × Nat} :
    p ∈ spriteTargets x0 y0 bs ↔ spriteHits x0 y0 bs p.1 p.2 := by
  induction bs generalizing y0 with
  | nil => simp [spriteTargets, spriteHits]
  | cons b bs ih =>
    rw [spriteTargets, List.mem_append, ih]
    simp only [List.mem_map, mem_setColumns]
    unfold spriteHits
    constructor
    · rintro (⟨c, ⟨hc, hb⟩, rfl⟩ | ⟨r, c, hr, hc, hb, hx, hy⟩)
      · exact ⟨0, c, by simp, hc, by simpa using hb, rfl, rfl⟩
      · exact ⟨r + 1, c, by simpa using hr, hc, by simpa using hb, hx, by omega⟩
    · rintro ⟨r, c, hr, hc, hb, hx, hy⟩
      cases r with
      | zero => exact .inl ⟨c, ⟨hc, by simpa using hb⟩, by ext <;> simp [hx, hy]⟩
      | succ r => exact .inr ⟨r, c, by simpa using hr, hc, by simpa using hb, hx, by omega⟩

/-- A sprite names no pixel twice, for coordinates are not wrapped (R94, R96). -/
theorem spriteTargets_nodup (x0 y0 : Nat) (bs : List Byte) : (spriteTargets x0 y0 bs).Nodup := by
  induction bs generalizing y0 with
  | nil => simp [spriteTargets]
  | cons b bs ih =>
    rw [spriteTargets, List.nodup_append]
    refine ⟨(List.nodup_range.filter _).map fun c d h => by simpa using h, ih _, fun p hp q hq hpq => ?_⟩
    subst hpq
    obtain ⟨r, c, -, -, -, -, h⟩ := mem_spriteTargets.1 hq
    obtain ⟨c', -, rfl⟩ := List.mem_map.1 hp
    simp only at h
    omega

/-- A blit answers its pixels when every set bit is inside, and `FB_RANGE` when one is not. -/
theorem blit_cases (fb : Framebuffer) (x0 y0 : Nat) (bs : List Byte) :
    (blit fb x0 y0 bs = .ok ((spriteTargets x0 y0 bs).foldl blitPixel (false, fb)) ∧
      ∀ x y, spriteHits x0 y0 bs x y → x < 64 ∧ y < 32) ∨
    (blit fb x0 y0 bs = .error .fbRange ∧ ∃ x y, spriteHits x0 y0 bs x y ∧ (x > 63 ∨ y > 31)) := by
  rw [blit_eq]
  by_cases h : ∀ p ∈ spriteTargets x0 y0 bs, p.1 < 64 ∧ p.2 < 32
  · exact .inl ⟨if_pos h, fun x y hx => h (x, y) (mem_spriteTargets.2 hx)⟩
  · rw [if_neg h]
    push Not at h
    obtain ⟨p, hp, h⟩ := h
    exact .inr ⟨rfl, p.1, p.2, mem_spriteTargets.1 hp, by omega⟩

/-! ## Fault entry and the end of a step -/

@[simp] theorem complete_ok (i : Instr) (s t : State) : complete i s (.ok t) = .next t := rfl

@[simp] theorem complete_error (i : Instr) (s : State) (c : FaultCause) :
    complete i s (.error c) = .next (raiseFault c (encode i) s) := rfl

/-- Completing an instruction always answers a next state: its result, or the entry of its fault. -/
theorem complete_next {i : Instr} {s t : State} {r : Except FaultCause State} (h : complete i s r = .next t) :
    r = .ok t ∨ ∃ c, r = .error c ∧ t = raiseFault c (encode i) s := by
  cases r with
  | ok u => left; injection h with h; rw [h]
  | error c => right; exact ⟨c, rfl, by injection h with h; exact h.symm⟩

/-- A tick lowers a timer by one and saturates at 0 (R105). -/
theorem toNat_tick (b : Byte) : (tick b).toNat = b.toNat - 1 := by
  unfold tick
  split
  · next h => simp [h]
  · next h =>
    have : b.toNat ≠ 0 := fun h0 => h (BitVec.eq_of_toNat_eq (by simpa using h0))
    have := b.isLt
    rw [BitVec.toNat_sub]
    simp
    omega

theorem finishStep_running {t : State} (h : t.run = .running) : finishStep t = timerPhase t := by
  simp [finishStep, h]

theorem finishStep_faulted {t : State} (h : t.run = .faulted) : finishStep t = t := by
  simp [finishStep, h]

end Sys2Proof.Machine
end

