-- ==== Sys2Proof/Laws/PerInstr.lean ====
section
/-! SUPPORT. The laws of every instruction as syntax, one lemma per constructor: the line R52 writes for it is well
formed, so no operand an instruction can hold is out of its field's range. -/

namespace Sys2Proof

theorem isReg_val (x : Reg) : isReg x.val = true := decide_eq_true x.isLt
theorem isImm8_toNat (nn : Byte) : isImm8 nn.toNat = true := decide_eq_true nn.isLt
theorem isImm12_toNat (nnn : Addr12) : isImm12 nnn.toNat = true := decide_eq_true nnn.isLt
theorem isImm4_toNat (n : Nibble) : isImm4 n.toNat = true := decide_eq_true n.isLt

end Sys2Proof

namespace Sys2Proof.Laws.WellFormedLine

/-- The line of the instruction is well formed: it names a row of R48 and every number fits its field. -/
def Statement (i : Instr) : Prop := i.wf = true

theorem cls : Statement (.cls) := rfl
theorem ret : Statement (.ret) := rfl
theorem jp (nnn : Addr12) : Statement (.jp nnn) := isImm12_toNat nnn
theorem call (nnn : Addr12) : Statement (.call nnn) := isImm12_toNat nnn
theorem seVxNn (x : Reg) (nn : Byte) : Statement (.seVxNn x nn) :=
  Bool.and_eq_true_iff.2 ⟨isReg_val x, isImm8_toNat nn⟩
theorem sneVxNn (x : Reg) (nn : Byte) : Statement (.sneVxNn x nn) :=
  Bool.and_eq_true_iff.2 ⟨isReg_val x, isImm8_toNat nn⟩
theorem seVxVy (x : Reg) (y : Reg) : Statement (.seVxVy x y) := Bool.and_eq_true_iff.2 ⟨isReg_val x, isReg_val y⟩
theorem ldVxNn (x : Reg) (nn : Byte) : Statement (.ldVxNn x nn) :=
  Bool.and_eq_true_iff.2 ⟨isReg_val x, isImm8_toNat nn⟩
theorem addVxNn (x : Reg) (nn : Byte) : Statement (.addVxNn x nn) :=
  Bool.and_eq_true_iff.2 ⟨isReg_val x, isImm8_toNat nn⟩
theorem ldVxVy (x : Reg) (y : Reg) : Statement (.ldVxVy x y) := Bool.and_eq_true_iff.2 ⟨isReg_val x, isReg_val y⟩
theorem orVxVy (x : Reg) (y : Reg) : Statement (.orVxVy x y) := Bool.and_eq_true_iff.2 ⟨isReg_val x, isReg_val y⟩
theorem andVxVy (x : Reg) (y : Reg) : Statement (.andVxVy x y) := Bool.and_eq_true_iff.2 ⟨isReg_val x, isReg_val y⟩
theorem xorVxVy (x : Reg) (y : Reg) : Statement (.xorVxVy x y) := Bool.and_eq_true_iff.2 ⟨isReg_val x, isReg_val y⟩
theorem addVxVy (x : Reg) (y : Reg) : Statement (.addVxVy x y) := Bool.and_eq_true_iff.2 ⟨isReg_val x, isReg_val y⟩
theorem sub (x : Reg) (y : Reg) : Statement (.sub x y) := Bool.and_eq_true_iff.2 ⟨isReg_val x, isReg_val y⟩
theorem shr (x : Reg) (y : Reg) : Statement (.shr x y) := isReg_val x
theorem subn (x : Reg) (y : Reg) : Statement (.subn x y) := Bool.and_eq_true_iff.2 ⟨isReg_val x, isReg_val y⟩
theorem shl (x : Reg) (y : Reg) : Statement (.shl x y) := isReg_val x
theorem sneVxVy (x : Reg) (y : Reg) : Statement (.sneVxVy x y) := Bool.and_eq_true_iff.2 ⟨isReg_val x, isReg_val y⟩
theorem ldINnn (nnn : Addr12) : Statement (.ldINnn nnn) := isImm12_toNat nnn
theorem jpV0Nnn (nnn : Addr12) : Statement (.jpV0Nnn nnn) := isImm12_toNat nnn
theorem rnd (x : Reg) (nn : Byte) : Statement (.rnd x nn) := Bool.and_eq_true_iff.2 ⟨isReg_val x, isImm8_toNat nn⟩
theorem drw (x : Reg) (y : Reg) (n : Nibble) : Statement (.drw x y n) :=
  Bool.and_eq_true_iff.2 ⟨Bool.and_eq_true_iff.2 ⟨isReg_val x, isReg_val y⟩, isImm4_toNat n⟩
theorem skp (x : Reg) : Statement (.skp x) := isReg_val x
theorem sknp (x : Reg) : Statement (.sknp x) := isReg_val x
theorem ldVxDt (x : Reg) : Statement (.ldVxDt x) := isReg_val x
theorem ldVxK (x : Reg) : Statement (.ldVxK x) := isReg_val x
theorem ldDtVx (x : Reg) : Statement (.ldDtVx x) := isReg_val x
theorem ldStVx (x : Reg) : Statement (.ldStVx x) := isReg_val x
theorem addIVx (x : Reg) : Statement (.addIVx x) := isReg_val x
theorem ldFVx (x : Reg) : Statement (.ldFVx x) := isReg_val x
theorem ldBVx (x : Reg) : Statement (.ldBVx x) := isReg_val x
theorem ldMemVx (x : Reg) : Statement (.ldMemVx x) := isReg_val x
theorem ldVxMem (x : Reg) : Statement (.ldVxMem x) := isReg_val x

end Sys2Proof.Laws.WellFormedLine
end

