-- ==== Sys2Proof/Laws/Step.lean ====
section
/-! SUPPORT. What an instruction and a step can do, said once: an instruction completes or has its fault taken in the
state before it; a step is one of five cases. -/

namespace Sys2Proof.Machine

/-! ## The parts of the step -/

theorem fetch_eq (s : State) : fetch s = if s.canFetch then .ok s.wordAtPc else .error .fetchBounds := by
  unfold fetch State.canFetch State.wordAtPc
  split
  · rw [if_neg (by omega)]
  · rw [if_pos (by omega)]

/-- A tick is a subtraction that stops at 0. -/
theorem tick_eq (b : Byte) : tick b = BitVec.ofNat 8 (b.toNat - 1) := by
  apply BitVec.eq_of_toNat_eq
  rw [toNat_tick, BitVec.toNat_ofNat, Nat.mod_eq_of_lt (by have := b.isLt; omega)]

theorem timerPhase_eq (s : State) : timerPhase s = s.ticked := by
  rw [timerPhase, tick_eq, tick_eq]; rfl

theorem step_faulted {s : State} (h : s.run = .faulted) : step s = .next s := by
  unfold step stepCycle; rw [h]

theorem step_no_fetch {s : State} (h : s.run = .running) (hf : ¬ s.canFetch) :
    step s = .next (raiseFault .fetchBounds 0 s) := by
  unfold step stepCycle; rw [h, fetch_eq, if_neg hf]

theorem step_unrecognized {s : State} (h : s.run = .running) (hf : s.canFetch) {e : DecodeError}
    (hd : decodeWord s.wordAtPc = .error e) : step s = .next (timerPhase s.advance) := by
  unfold step stepCycle; simp only [h, fetch_eq, if_pos hf, hd]

theorem step_instr {s : State} (h : s.run = .running) (hf : s.canFetch) {i : Instr}
    (hd : decodeWord s.wordAtPc = .ok i) : step s = mapNext finishStep (exec i s) := by
  unfold step stepCycle; simp only [h, fetch_eq, if_pos hf, hd]

theorem run_succ (k : Nat) {s t : State} (h : step s = .next t) :
    Sys2Proof.core.run (k + 1) s = Sys2Proof.core.run k t := by
  have h' : Sys2Proof.core.step s = .next t := h
  refine (Host.Core.run.eq_2 Sys2Proof.core s k).trans ?_
  rw [h']

/-! ## What an instruction can do -/

/-- Every instruction completes with a result or has a fault taken in the state before it; a result is as running
as that state was. -/
theorem exec_complete (i : Instr) (s : State) :
    ∃ r, exec i s = complete i s r ∧ ∀ t, r = .ok t → t.run = s.run := by
  cases i
  case ret =>
    refine ⟨_, rfl, fun t ht => ?_⟩
    cases hp : popReturn s with
    | error c => rw [hp] at ht; cases ht
    | ok p => obtain ⟨_, rfl⟩ := popReturn_ok hp; rw [hp] at ht; cases ht; rfl
  case call nnn =>
    refine ⟨_, rfl, fun t ht => ?_⟩
    cases hp : pushReturn s (s.pc + 2) with
    | error c => rw [hp] at ht; cases ht
    | ok p => obtain ⟨_, rfl⟩ := pushReturn_ok hp; rw [hp] at ht; cases ht; rfl
  case drw x y n =>
    refine ⟨_, rfl, fun t ht => ?_⟩
    cases hm : memRead s (baseAddr s) n.toNat with
    | error c => rw [hm] at ht; cases ht
    | ok bs =>
      rw [hm] at ht
      cases hb : blit s.fb (s.reg x).toNat (s.reg y).toNat bs with
      | error c => simp only [Except.bind, hb] at ht; cases ht
      | ok p => simp only [Except.bind, hb] at ht; cases ht; rfl
  case skp x =>
    refine ⟨_, rfl, fun t ht => ?_⟩
    cases hk : keyDown s (s.reg x) with
    | error c => rw [hk] at ht; cases ht
    | ok d => rw [hk] at ht; cases ht; rfl
  case sknp x =>
    refine ⟨_, rfl, fun t ht => ?_⟩
    cases hk : keyDown s (s.reg x) with
    | error c => rw [hk] at ht; cases ht
    | ok d => rw [hk] at ht; cases ht; rfl
  case ldBVx x =>
    refine ⟨_, rfl, fun t ht => ?_⟩
    rw [memWrite_eq] at ht
    split at ht <;> cases ht
    rfl
  case ldMemVx x =>
    refine ⟨_, rfl, fun t ht => ?_⟩
    rw [memWrite_eq] at ht
    split at ht <;> cases ht
    rfl
  case ldVxMem x =>
    refine ⟨_, rfl, fun t ht => ?_⟩
    rw [memRead_eq] at ht
    split at ht <;> cases ht
    change (loadRegs s 0 _).run = s.run
    rw [loadRegs_frame]
  case ldVxK x =>
    simp only [exec, execLdVxK]
    cases highestKeyDown s with
    | none => exact ⟨.ok s, rfl, by rintro t ⟨⟩; rfl⟩
    | some k => exact ⟨.ok _, rfl, by rintro t ⟨⟩; rfl⟩
  all_goals exact ⟨.ok _, rfl, by rintro t ⟨⟩; rfl⟩

theorem exec_cases {i : Instr} {s t : State} (h : exec i s = .next t) :
    t.run = s.run ∨ ∃ c, t = raiseFault c (encode i) s := by
  obtain ⟨r, hr, hk⟩ := exec_complete i s
  rw [hr] at h
  rcases complete_next h with rfl | ⟨c, -, rfl⟩
  · exact .inl (hk _ rfl)
  · exact .inr ⟨c, rfl⟩

/-! ## What a step can do -/

/-- The five cases of a step: a faulted machine; a fetch out of bounds; an unrecognized word; an instruction that
completes, then the timer phase; an instruction that faults. -/
theorem step_cases {s t : State} (h : step s = .next t) :
    (s.run = .faulted ∧ t = s) ∨
    (s.run = .running ∧ ¬ s.canFetch ∧ t = raiseFault .fetchBounds 0 s) ∨
    (s.run = .running ∧ s.canFetch ∧ (∃ e, decodeWord s.wordAtPc = .error e) ∧ t = timerPhase s.advance) ∨
    (s.run = .running ∧ s.canFetch ∧
      ∃ i u, decodeWord s.wordAtPc = .ok i ∧ exec i s = .next u ∧ u.run = .running ∧ t = timerPhase u) ∨
    (s.run = .running ∧ s.canFetch ∧
      ∃ i c, decodeWord s.wordAtPc = .ok i ∧ exec i s = .next t ∧ t = raiseFault c (encode i) s) := by
  cases hr : s.run with
  | faulted => rw [step_faulted hr] at h; cases h; exact .inl ⟨rfl, rfl⟩
  | running =>
    by_cases hf : s.canFetch
    · cases hd : decodeWord s.wordAtPc with
      | error e =>
        rw [step_unrecognized hr hf hd] at h; cases h
        exact .inr (.inr (.inl ⟨rfl, hf, ⟨e, rfl⟩, rfl⟩))
      | ok i =>
        rw [step_instr hr hf hd] at h
        cases hx : exec i s with
        | fault r => cases r
        | refused r => rw [hx] at h; cases h
        | next u =>
          rw [hx] at h; cases h
          rcases exec_cases hx with hu | ⟨c, rfl⟩
          · rw [hr] at hu
            exact .inr (.inr (.inr (.inl ⟨rfl, hf, i, u, rfl, hx, hu, finishStep_running hu⟩)))
          · rw [finishStep_faulted rfl]
            exact .inr (.inr (.inr (.inr ⟨rfl, hf, i, c, rfl, hx, rfl⟩)))
    · rw [step_no_fetch hr hf] at h; cases h
      exact .inr (.inl ⟨rfl, hf, rfl⟩)

end Sys2Proof.Machine
end

