-- ==== Sys2Proof/Tests/Slice0.lean ====
section
/-! SUPPORT. The model's own tests: ill-formed lines refused, one word per constructor decoded, one step per
instruction with the expected values of spec/95_test_vectors.md (its row ids in the comments), and for each
obligation a witness that meets its hypotheses. -/

namespace Sys2Proof.Tests

open Sys2Proof.Machine

/-! ## Helpers -/

/-- `s` with a word placed at `pc`. -/
def placed (s : State) (w : Word) : State := { s with mem := s.mem.writeBytes s.pc.toNat (bytesOfWord w) }

/-- `s` with registers set. -/
def withRegs (s : State) (l : List (Reg × Byte)) : State := l.foldl (fun s p => s.setReg p.1 p.2) s

/-- Reset state with registers and `I` set, and bytes at `I`. -/
def scene (regs : List (Reg × Byte)) (i : Word) (bytes : List Byte) : State :=
  { withRegs State.reset regs with iReg := i, mem := Mem.writeBytes [] i.toNat bytes }

/-- Does one step answer a next state with the property? -/
def stepGives (s : State) (p : State → Bool) : Bool :=
  match step s with
  | .next t => p t
  | .fault _ => false
  | .refused _ => false

/-- Does executing the instruction answer a next state with the property? -/
def execGives (i : Instr) (s : State) (p : State → Bool) : Bool :=
  match exec i s with
  | .next t => p t
  | .fault _ => false
  | .refused _ => false

/-- Does the host's action answer a next session with the property? -/
def actGives (u : Session) (a : HostAction) (p : Session → Bool) : Bool :=
  match u.act a with
  | .next v => p v
  | .fault _ => false
  | .refused _ => false

theorem of_stepGives {s : State} {p : State → Bool} (h : stepGives s p = true) : ∃ t, step s = .next t ∧ p t = true := by
  unfold stepGives at h
  split at h
  · next t ht => exact ⟨t, ht, h⟩
  all_goals cases h

theorem of_execGives {i : Instr} {s : State} {p : State → Bool} (h : execGives i s p = true) :
    ∃ t, exec i s = .next t ∧ p t = true := by
  unfold execGives at h
  split at h
  · next t ht => exact ⟨t, ht, h⟩
  all_goals cases h

theorem of_actGives {u : Session} {a : HostAction} {p : Session → Bool} (h : actGives u a p = true) :
    ∃ v, u.act a = .next v ∧ p v = true := by
  unfold actGives at h
  split at h
  · next t ht => exact ⟨t, ht, h⟩
  all_goals cases h

/-- The fault record after a fault: run state, cause, `pc`, word. -/
def faultIs (c : FaultCause) (pc w : Word) (t : State) : Bool :=
  t.run == .faulted && t.faultCause == c && t.faultPc == pc && t.faultWord == w && t.pc == pc

/-! ## Ill-formed lines (R47, R52): one for each check -/

theorem test_wf_no_register_16 : assemble ⟨.ld, [.v 16, .num 1]⟩ = none := by decide
theorem test_wf_no_second_register_16 : assemble ⟨.add, [.v 0, .v 16]⟩ = none := by decide
theorem test_wf_imm8 : assemble ⟨.se, [.v 1, .num 256]⟩ = none := by decide
theorem test_wf_imm12 : assemble ⟨.call, [.num 4096]⟩ = none := by decide
theorem test_wf_imm4 : assemble ⟨.drw, [.v 0, .v 1, .num 16]⟩ = none := by decide
theorem test_wf_jump_offset_is_v0 : assemble ⟨.jp, [.v 1, .num 0x300]⟩ = none := by decide
theorem test_wf_operand_count : assemble ⟨.cls, [.v 0]⟩ = none ∧ assemble ⟨.shr, [.v 0, .v 1]⟩ = none := by decide
theorem test_wf_operand_kind : assemble ⟨.ld, [.i, .v 0]⟩ = none ∧ assemble ⟨.ld, [.v 0, .st]⟩ = none := by decide
/-- The largest values that fit. -/
theorem test_wf_limits : assemble ⟨.drw, [.v 15, .v 15, .num 15]⟩ = some (.drw 15 15 15) ∧
    assemble ⟨.jp, [.v 0, .num 4095]⟩ = some (.jpV0Nnn 0xFFF) ∧
    assemble ⟨.ld, [.v 15, .num 255]⟩ = some (.ldVxNn 15 0xFF) := by decide
/-- Programs P1, P2 and P4 of 95_test_vectors.md, their lines and words. -/
theorem test_asm_words :
    (assemble ⟨.add, [.v 0, .v 1]⟩).map encode = some 0x8014 ∧ (assemble ⟨.ld, [.bcd, .v 0]⟩).map encode = some 0xF033 ∧
    (assemble ⟨.ld, [.v 2, .atI]⟩).map encode = some 0xF265 ∧ (assemble ⟨.ld, [.v 2, .key]⟩).map encode = some 0xF20A ∧
    (assemble ⟨.ld, [.dt, .v 0]⟩).map encode = some 0xF015 ∧ (assemble ⟨.call, [.num 0x210]⟩).map encode = some 0x2210 := by
  decide

/-! ## One word per constructor (R48), written bit by bit: op, X, Y, N -/

theorem test_decode_system :
    decodeWord 0b0000000011100000 = .ok .cls ∧ decodeWord 0b0000000011101110 = .ok .ret := by decide

theorem test_decode_control :
    decodeWord 0b0001101010111100 = .ok (.jp 0xABC) ∧ decodeWord 0b0010001000010000 = .ok (.call 0x210) ∧
    decodeWord 0b0011000101000010 = .ok (.seVxNn 1 0x42) ∧ decodeWord 0b0100101001111111 = .ok (.sneVxNn 10 0x7F) ∧
    decodeWord 0b0101101010110000 = .ok (.seVxVy 10 11) ∧ decodeWord 0b1001000100100000 = .ok (.sneVxVy 1 2) ∧
    decodeWord 0b1011001011111111 = .ok (.jpV0Nnn 0x2FF) := by decide

theorem test_decode_load_alu :
    decodeWord 0b0110000011101010 = .ok (.ldVxNn 0 0xEA) ∧ decodeWord 0b0111000111111111 = .ok (.addVxNn 1 0xFF) ∧
    decodeWord 0b1000000100100000 = .ok (.ldVxVy 1 2) ∧ decodeWord 0b1000000100100001 = .ok (.orVxVy 1 2) ∧
    decodeWord 0b1000000100100010 = .ok (.andVxVy 1 2) ∧ decodeWord 0b1000000100100011 = .ok (.xorVxVy 1 2) := by decide

theorem test_decode_alu_flags :
    decodeWord 0b1000000000010100 = .ok (.addVxVy 0 1) ∧ decodeWord 0b1000000000010101 = .ok (.sub 0 1) ∧
    decodeWord 0b1000101010110110 = .ok (.shr 10 11) ∧ decodeWord 0b1000111100010111 = .ok (.subn 15 1) ∧
    decodeWord 0b1000111111111110 = .ok (.shl 15 15) ∧ decodeWord 0b1100000100001111 = .ok (.rnd 1 0x0F) := by decide

theorem test_decode_index_memory :
    decodeWord 0b1010001100000000 = .ok (.ldINnn 0x300) ∧ decodeWord 0b1111001000011110 = .ok (.addIVx 2) ∧
    decodeWord 0b1111001100101001 = .ok (.ldFVx 3) ∧ decodeWord 0b1111010000110011 = .ok (.ldBVx 4) ∧
    decodeWord 0b1111001001010101 = .ok (.ldMemVx 2) ∧ decodeWord 0b1111111101100101 = .ok (.ldVxMem 15) := by decide

theorem test_decode_display_keypad_timers :
    decodeWord 0b1101000100100101 = .ok (.drw 1 2 5) ∧ decodeWord 0b1110001010011110 = .ok (.skp 2) ∧
    decodeWord 0b1110000010100001 = .ok (.sknp 0) ∧ decodeWord 0b1111000100000111 = .ok (.ldVxDt 1) ∧
    decodeWord 0b1111001000001010 = .ok (.ldVxK 2) ∧ decodeWord 0b1111000000010101 = .ok (.ldDtVx 0) ∧
    decodeWord 0b1111001100011000 = .ok (.ldStVx 3) := by decide

/-- Rejected by name: TE1, TE2, TE12, then TE3 to TE6 (R50's ambiguous-decode class), then the rest. -/
theorem test_decode_rejects_family_0 : decodeWord 0x0000 = .error (.unrecognized 0x0000) ∧
    decodeWord 0x0123 = .error (.unrecognized 0x0123) ∧ decodeWord 0x00FF = .error (.unrecognized 0x00FF) := by decide
theorem test_decode_rejects_ambiguous : decodeWord 0x01E0 = .error (.unrecognized 0x01E0) ∧
    decodeWord 0x0FEE = .error (.unrecognized 0x0FEE) ∧ decodeWord 0x5121 = .error (.unrecognized 0x5121) ∧
    decodeWord 0x912F = .error (.unrecognized 0x912F) := by decide
theorem test_decode_rejects_gaps : decodeWord 0x8128 = .error (.unrecognized 0x8128) ∧
    decodeWord 0x812F = .error (.unrecognized 0x812F) ∧ decodeWord 0xE19F = .error (.unrecognized 0xE19F) ∧
    decodeWord 0xF100 = .error (.unrecognized 0xF100) ∧ decodeWord 0xF1FF = .error (.unrecognized 0xF1FF) := by decide

/-- Big-endian, and the rest of the bytes is left (TF6). -/
theorem test_decode_bytes : decode [0x12, 0x34, 0x56] = .ok (.jp 0x234, [0x56]) := by rfl

/-- The table's numbering of a word's bits, and the fetch of what is placed: 8AB6 is the first instruction. -/
theorem test_table_word : decodeTableWord 16 0x8AB6 = some (.shr 0xA 0xB) ∧
    fetch (State.reset.withFetchWord 16 0x8AB6) = .ok 0x8AB6 := by decide

/-! ## One step per instruction (95_test_vectors.md, part 2) -/

/-- TD1. -/
theorem test_cls : stepGives (placed { State.reset with fb := clearFramebuffer.setPixel 63 31 true } 0x00E0)
    (fun t => t.redraw && !t.fb.pixel 63 31 && t.pc == 0x202) = true := by decide
/-- TC5. -/
theorem test_ret : stepGives (placed { State.reset with pc := 0x212, sp := 1, stack := State.reset.stack.set 0 0x206 }
    0x00EE) (fun t => t.pc == 0x206 && t.sp == 0 && t.stack[0] == 0x206) = true := by decide
/-- TC8: no timer phase. -/
theorem test_ret_underflow : stepGives (placed { State.reset with dt := 5 } 0x00EE)
    (fun t => faultIs .stackUnderflow 0x200 0x00EE t && t.dt == 5) = true := by decide
/-- TC3. -/
theorem test_jp : stepGives (placed State.reset 0x1FFF) (fun t => t.pc == 0xFFF) = true := by decide
/-- TC4. -/
theorem test_call : stepGives (placed { State.reset with pc := 0x204 } 0x2210)
    (fun t => t.pc == 0x210 && t.sp == 1 && t.stack[0] == 0x206) = true := by decide
/-- TC7. -/
theorem test_call_overflow : stepGives (placed { State.reset with sp := 16, dt := 5 } 0x2300)
    (fun t => faultIs .stackOverflow 0x200 0x2300 t && t.sp == 16 && t.dt == 5) = true := by decide
/-- TC9, TC10. -/
theorem test_se_nn : stepGives (placed (withRegs State.reset [(1, 0x42)]) 0x3142) (fun t => t.pc == 0x204) = true ∧
    stepGives (placed (withRegs State.reset [(1, 0x43)]) 0x3142) (fun t => t.pc == 0x202) = true := by decide
/-- TC11, TC12. -/
theorem test_sne_nn : stepGives (placed (withRegs State.reset [(1, 0x42)]) 0x4142) (fun t => t.pc == 0x202) = true ∧
    stepGives (placed (withRegs State.reset [(1, 0x43)]) 0x4142) (fun t => t.pc == 0x204) = true := by decide
/-- TC14, TC15. -/
theorem test_se_vy : stepGives (placed (withRegs State.reset [(1, 9), (2, 8)]) 0x5120) (fun t => t.pc == 0x202) = true ∧
    stepGives (placed (withRegs State.reset [(3, 0x77)]) 0x5330) (fun t => t.pc == 0x204) = true := by decide
/-- TC16, TC18. -/
theorem test_sne_vy : stepGives (placed (withRegs State.reset [(1, 9), (2, 8)]) 0x9120) (fun t => t.pc == 0x204) = true ∧
    stepGives (placed (withRegs State.reset [(4, 1)]) 0x9440) (fun t => t.pc == 0x202) = true := by decide
/-- TC20, TC21: the offset is `V[0]`; the sum is not reduced to 12 bits. -/
theorem test_jp_v0 : stepGives (placed (withRegs State.reset [(0, 1), (2, 0x80)]) 0xB2FF) (fun t => t.pc == 0x300) = true ∧
    stepGives (placed (withRegs State.reset [(0, 0xFF)]) 0xBFFF) (fun t => t.pc == 0x10FE) = true := by decide
/-- TA2. -/
theorem test_ld_nn : stepGives (placed State.reset 0x6FAB) (fun t => t.reg 15 == 0xAB && t.pc == 0x202) = true := by decide
/-- TA3: the sum wraps, no flag. -/
theorem test_add_nn : stepGives (placed (withRegs State.reset [(1, 0xFF), (15, 7)]) 0x7101)
    (fun t => t.reg 1 == 0 && t.reg 15 == 7) = true := by decide
/-- TA6. -/
theorem test_ld_vy : stepGives (placed (withRegs State.reset [(2, 0x33)]) 0x8120)
    (fun t => t.reg 1 == 0x33 && t.reg 2 == 0x33) = true := by decide
/-- TA7. -/
theorem test_or : stepGives (placed (withRegs State.reset [(1, 0xF0), (2, 0x0F), (15, 1)]) 0x8121)
    (fun t => t.reg 1 == 0xFF && t.reg 15 == 1) = true := by decide
/-- TA8. -/
theorem test_and : stepGives (placed (withRegs State.reset [(1, 0xF3), (2, 0x3C), (15, 1)]) 0x8122)
    (fun t => t.reg 1 == 0x30 && t.reg 15 == 1) = true := by decide
/-- TA9. -/
theorem test_xor : stepGives (placed (withRegs State.reset [(1, 0xFF), (2, 0x0F), (15, 1)]) 0x8123)
    (fun t => t.reg 1 == 0xF0 && t.reg 15 == 1) = true := by decide
/-- TA11, TA13. -/
theorem test_add_vy : stepGives (placed (withRegs State.reset [(0, 0xC8), (1, 0x64)]) 0x8014)
      (fun t => t.reg 0 == 0x2C && t.reg 15 == 1) = true ∧
    stepGives (placed (withRegs State.reset [(0, 0x80), (1, 0x7F), (15, 1)]) 0x8014)
      (fun t => t.reg 0 == 0xFF && t.reg 15 == 0) = true := by decide
/-- TA16, TA18: `V[0xF]` as destination and as source. -/
theorem test_add_vy_flag : stepGives (placed (withRegs State.reset [(15, 0xF0), (1, 0x20)]) 0x8F14)
      (fun t => t.reg 15 == 1) = true ∧
    stepGives (placed (withRegs State.reset [(0, 0xFF), (15, 2)]) 0x80F4)
      (fun t => t.reg 0 == 1 && t.reg 15 == 1) = true := by decide
/-- TA19, TA20. -/
theorem test_sub : stepGives (placed (withRegs State.reset [(0, 0x10), (1, 0x20), (15, 1)]) 0x8015)
      (fun t => t.reg 0 == 0xF0 && t.reg 15 == 0) = true ∧
    stepGives (placed (withRegs State.reset [(0, 5), (1, 5)]) 0x8015)
      (fun t => t.reg 0 == 0 && t.reg 15 == 1) = true := by decide
/-- TA22, TA24. -/
theorem test_sub_flag : stepGives (placed (withRegs State.reset [(15, 5), (1, 3)]) 0x8F15)
      (fun t => t.reg 15 == 2) = true ∧
    stepGives (placed (withRegs State.reset [(0, 5), (15, 7)]) 0x80F5)
      (fun t => t.reg 0 == 0xFE && t.reg 15 == 0) = true := by decide
/-- TA29: `Y` is ignored. -/
theorem test_shr : stepGives (placed (withRegs State.reset [(1, 6), (2, 0xFF), (15, 1)]) 0x8126)
    (fun t => t.reg 1 == 3 && t.reg 2 == 0xFF && t.reg 15 == 0) = true := by decide
/-- TA27, TA30. -/
theorem test_shr_flag : stepGives (placed (withRegs State.reset [(1, 1)]) 0x8106)
      (fun t => t.reg 1 == 0 && t.reg 15 == 1) = true ∧
    stepGives (placed (withRegs State.reset [(15, 5)]) 0x8F06) (fun t => t.reg 15 == 2) = true := by decide
/-- TA31, TA32. -/
theorem test_subn : stepGives (placed (withRegs State.reset [(0, 0x10), (1, 0x20)]) 0x8017)
      (fun t => t.reg 0 == 0x10 && t.reg 15 == 1) = true ∧
    stepGives (placed (withRegs State.reset [(0, 0x20), (1, 0x10), (15, 1)]) 0x8017)
      (fun t => t.reg 0 == 0xF0 && t.reg 15 == 0) = true := by decide
/-- TA34, TA35. -/
theorem test_subn_flag : stepGives (placed (withRegs State.reset [(15, 3), (1, 10)]) 0x8F17)
      (fun t => t.reg 15 == 7) = true ∧
    stepGives (placed (withRegs State.reset [(0, 3), (15, 10)]) 0x80F7)
      (fun t => t.reg 0 == 7 && t.reg 15 == 1) = true := by decide
/-- TA39: the flag is 1, not 0x80. -/
theorem test_shl : stepGives (placed (withRegs State.reset [(1, 0x80)]) 0x810E)
    (fun t => t.reg 1 == 0 && t.reg 15 == 1) = true := by decide
/-- TA40. -/
theorem test_shl_flag : stepGives (placed (withRegs State.reset [(15, 0x41)]) 0x8F0E)
    (fun t => t.reg 15 == 0x82) = true := by decide
/-- TA43, with the byte drawn left free: `NN` = 0 always gives 0, and the next draw is another one. -/
theorem test_rnd : ∃ t, exec (.rnd 2 0) (withRegs State.reset [(2, 0x99)]) = .next t ∧ t.reg 2 = 0 ∧ t.draws = 1 := by
  refine ⟨_, rfl, ?_, rfl⟩
  rw [State.reg_writeReg, if_pos rfl]
  exact BitVec.zero_and
/-- TM2. -/
theorem test_ld_i : stepGives (placed { State.reset with iReg := 0xFFFF } 0xAFFF) (fun t => t.iReg == 0x0FFF) = true := by
  decide
/-- TM3, TM4. -/
theorem test_add_i : stepGives (placed (scene [(2, 5)] 0x0FFE []) 0xF21E)
      (fun t => t.iReg == 0x1003 && t.reg 15 == 0) = true ∧
    stepGives (placed (scene [(2, 2)] 0xFFFF []) 0xF21E) (fun t => t.iReg == 0x0001) = true := by decide
/-- TM6, TM7: the whole byte, not its low digit. -/
theorem test_ld_f : stepGives (placed (withRegs State.reset [(0, 0x10)]) 0xF029) (fun t => t.iReg == 0x50) = true ∧
    stepGives (placed (withRegs State.reset [(0, 0xFF)]) 0xF029) (fun t => t.iReg == 0x4FB) = true := by decide
/-- TM13: the last legal `I`. -/
theorem test_ld_b : stepGives (placed (scene [(0, 123)] 0x0FFD []) 0xF033)
    (fun t => t.mem.read 0xFFD == 1 && t.mem.read 0xFFE == 2 && t.mem.read 0xFFF == 3 && t.iReg == 0xFFD) = true := by
  decide
/-- TM14: nothing is stored. -/
theorem test_ld_b_fault : stepGives (placed (scene [(0, 123)] 0x0FFE []) 0xF033)
    (fun t => faultIs .dataBounds 0x200 0xF033 t && t.mem.read 0xFFE == 0) = true := by decide
/-- TM16. -/
theorem test_ld_mem : stepGives (placed (scene [(0, 0x11), (1, 0x22), (2, 0x33), (3, 0x44)] 0x400 []) 0xF255)
    (fun t => t.mem.read 0x400 == 0x11 && t.mem.read 0x402 == 0x33 && t.mem.read 0x403 == 0 && t.iReg == 0x400) = true := by
  decide
/-- TM19. -/
theorem test_ld_mem_fault : stepGives (placed (scene [(0, 0xA0)] 0x0FF1 []) 0xFF55)
    (fun t => faultIs .dataBounds 0x200 0xFF55 t && t.mem.read 0xFF1 == 0) = true := by decide
/-- TM20. -/
theorem test_ld_vx_mem : stepGives (placed (scene [(3, 0x77)] 0x300 [2, 3, 4, 5]) 0xF265)
    (fun t => t.reg 0 == 2 && t.reg 2 == 4 && t.reg 3 == 0x77 && t.iReg == 0x300) = true := by decide
/-- TM22: `V[0]` is not loaded. -/
theorem test_ld_vx_mem_fault : stepGives (placed (scene [] 0x0FFF [0x5C]) 0xF165)
    (fun t => faultIs .dataBounds 0x200 0xF165 t && t.reg 0 == 0) = true := by decide
/-- TD5, drawn by TD3's rules: one pixel on, one off, a collision. -/
theorem test_drw : stepGives (placed { scene [(0, 10), (1, 5)] 0x300 [0xC0] with
      fb := clearFramebuffer.setPixel 11 5 true } 0xD011)
    (fun t => t.reg 15 == 1 && t.redraw && t.fb.pixel 10 5 && !t.fb.pixel 11 5) = true := by decide
/-- TD9, TD17. -/
theorem test_drw_faults : stepGives (placed (scene [(0, 60), (1, 31)] 0x300 [0xF8]) 0xD011)
      (fun t => faultIs .fbRange 0x200 0xD011 t && !t.fb.pixel 60 31 && !t.redraw) = true ∧
    stepGives (placed (scene [(0, 64)] 0x0FFF [0x80]) 0xD012) (fun t => faultIs .dataBounds 0x200 0xD012 t) = true := by
  decide
/-- TK1, TK2. -/
theorem test_skp : stepGives (placed { withRegs State.reset [(2, 7)] with keys := State.reset.keys.set 7 true } 0xE29E)
      (fun t => t.pc == 0x204) = true ∧
    stepGives (placed { withRegs State.reset [(2, 7)] with keys := State.reset.keys.set 2 true } 0xE29E)
      (fun t => t.pc == 0x202) = true := by decide
/-- TK3: the code is not masked. -/
theorem test_skp_fault : stepGives (placed { withRegs State.reset [(2, 16)] with keys := State.reset.keys.set 0 true }
    0xE29E) (faultIs .keyRange 0x200 0xE29E) = true := by decide
/-- TK4, TK5. -/
theorem test_sknp : stepGives (placed (withRegs State.reset [(0, 15)]) 0xE0A1) (fun t => t.pc == 0x204) = true ∧
    stepGives (placed { withRegs State.reset [(0, 15)] with keys := State.reset.keys.set 15 true } 0xE0A1)
      (fun t => t.pc == 0x202) = true := by decide
/-- TK6. -/
theorem test_sknp_fault : stepGives (placed (withRegs State.reset [(0, 0xFF)]) 0xE0A1)
    (faultIs .keyRange 0x200 0xE0A1) = true := by decide
/-- TK7: waiting, and the timers tick. -/
theorem test_ld_k_waits : stepGives (placed { withRegs State.reset [(2, 0x55)] with dt := 5, st := 1 } 0xF20A)
    (fun t => t.pc == 0x200 && t.reg 2 == 0x55 && t.dt == 4 && t.st == 0) = true := by decide
/-- TK9: the highest key wins. -/
theorem test_ld_k : stepGives (placed { State.reset with keys := (State.reset.keys.set 2 true).set 7 true } 0xF20A)
    (fun t => t.reg 2 == 7 && t.pc == 0x202) = true := by decide
/-- TT4. -/
theorem test_ld_vx_dt : stepGives (placed { State.reset with dt := 9 } 0xF107)
    (fun t => t.reg 1 == 9 && t.dt == 8) = true := by decide
/-- TT1, TT3. -/
theorem test_ld_dt_vx : stepGives (placed (withRegs State.reset [(0, 10)]) 0xF015) (fun t => t.dt == 9) = true ∧
    stepGives (placed { State.reset with dt := 0x50 } 0xF015) (fun t => t.dt == 0) = true := by decide
/-- TT6. -/
theorem test_ld_st_vx : stepGives (placed (withRegs State.reset [(3, 3)]) 0xF318)
    (fun t => t.st == 2 && t.dt == 0) = true := by decide
/-- TE1: zeroed memory is stepped over, the timers tick, one diagnostic. -/
theorem test_unrecognized : stepGives { State.reset with dt := 2 } (fun t => t.pc == 0x202 && t.dt == 1 && !t.redraw) = true ∧
    diagEvent { State.reset with dt := 2 } = some (0x200, 0x0000) := by decide
/-- TF1, TF2: the last address a fetch may start at, and the first it may not. -/
theorem test_fetch_bounds : stepGives (placed { State.reset with pc := 0xFFE } 0x6011)
      (fun t => t.reg 0 == 0x11 && t.pc == 0x1000) = true ∧
    stepGives { State.reset with pc := 0xFFF } (faultIs .fetchBounds 0xFFF 0) = true := by decide
/-- TF8: the glyph table is executable memory. -/
theorem test_fetch_glyphs : stepGives { State.reset with pc := 0 } (fun t => t.pc == 2) = true ∧
    diagEvent { State.reset with pc := 0 } = some (0, 0xF090) := by decide
/-- S9: the two bytes 1A BC loaded into reset state; one step gives `pc` = 0xABC. -/
theorem test_load : actGives ⟨State.reset, false, false⟩ (.load [0x1A, 0xBC])
    (fun u => stepGives u.core (fun t => t.pc == 0xABC)) = true := by decide
/-- Sessions: a second `Load`, a `Load` too long and a key code of 16 are refused (R42, R26). -/
theorem test_refusals : (⟨State.reset, false, true⟩ : Session).act (.load []) = .refused .loadContract ∧
    (⟨State.reset, false, false⟩ : Session).act (.load (List.replicate 3585 0)) = .refused .loadContract ∧
    (⟨State.reset, false, false⟩ : Session).act (.keySet 16 true) = .refused .keyCode := by
  refine ⟨rfl, ?_, rfl⟩
  rw [Session.act, if_neg (by rw [Session.mayLoad, List.length_replicate]; decide)]

/-! ## Witnesses: for each obligation with hypotheses, a state and operands that meet them together -/

theorem witness_encodeOfDecodedWord : decodeWord 0x8FFE = .ok (.shl 15 15) := by decide

theorem witness_stepRunsDecodedInstruction : (placed State.reset 0x1ABC).run = .running ∧
    (placed State.reset 0x1ABC).canFetch ∧ decodeWord (placed State.reset 0x1ABC).wordAtPc = .ok (.jp 0xABC) := by decide

theorem witness_faultedMachineIgnoresSteps : (State.reset.faultedWith .keyRange 0xE0A1).run = .faulted := rfl

theorem witness_fetchOutOfBoundsFaults_out : ({ State.reset with pc := 0xFFF } : State).run = .running ∧
    ({ State.reset with pc := 0xFFF } : State).pc.toNat ≥ 0xFFF := by decide

/-- In bounds at the boundary, with a fault of another cause: 00EE at 0xFFE with nothing to pop. -/
theorem witness_fetchOutOfBoundsFaults_in : ∃ s t : State, s.run = .running ∧ s.pc.toNat = 0xFFE ∧
    step s = .next t ∧ t.run = .faulted := by
  obtain ⟨t, ht, h⟩ := of_stepGives (s := placed { State.reset with pc := 0xFFE } 0x00EE) (p := fun t => t.run == .faulted)
    (by decide)
  exact ⟨_, t, rfl, by decide, ht, by simpa using h⟩

theorem witness_unrecognizedWordIsSteppedOver : State.reset.run = .running ∧ State.reset.canFetch ∧
    (∀ r ∈ opcodeRows, r.selects State.reset.wordAtPc = false) ∧ diagEvent State.reset = some (0x200, 0) := by
  refine ⟨rfl, by decide, ?_, by decide⟩
  rw [show State.reset.wordAtPc = 0 by decide]
  exact (decodeWord_error.1 test_decode_rejects_family_0.1).2

/-- Each row's own match has `w and mask = match`. -/
theorem witness_opcodeMap : opcodeRows.all (fun r => r.selects r.pattern) = true := by decide

theorem witness_timerPhaseRunsLast : ∃ s u : State, s.run = .running ∧ s.canFetch ∧
    decodeWord s.wordAtPc = .ok (.ldDtVx 0) ∧ exec (.ldDtVx 0) s = .next u ∧ u.run = .running :=
  ⟨placed State.reset 0xF015, _, rfl, by decide, by decide, rfl, rfl⟩

/-- Both kinds of step: one that sets DT, one that sets neither timer. -/
theorem witness_timersCountEveryStep :
    (∃ s t : State, s.run = .running ∧ step s = .next t ∧ t.run = .running ∧ s.wordAtPc &&& 0xF0FF = 0xF015) ∧
    (∃ s t : State, s.run = .running ∧ step s = .next t ∧ t.run = .running ∧ s.wordAtPc &&& 0xF0FF = 0xF018) ∧
    ∃ s t : State, s.run = .running ∧ step s = .next t ∧ t.run = .running ∧ s.wordAtPc = 0 := by
  obtain ⟨t, ht, h⟩ := of_stepGives (s := placed State.reset 0xF015) (p := fun t => t.run == .running) (by decide)
  obtain ⟨u, hu, h'⟩ := of_stepGives (s := placed State.reset 0xFF18) (p := fun t => t.run == .running) (by decide)
  obtain ⟨v, hv, h''⟩ := of_stepGives (s := State.reset) (p := fun t => t.run == .running) (by decide)
  exact ⟨⟨_, t, rfl, ht, by simpa using h, by decide⟩, ⟨_, u, rfl, hu, by simpa using h', by decide⟩,
    _, v, rfl, hv, by simpa using h'', by decide⟩

/-- A fault of the fetch and a fault of an instruction. -/
theorem witness_faultingStepWritesOnlyTheRecord :
    (∃ s t : State, s.run = .running ∧ step s = .next t ∧ t.run = .faulted ∧ t.faultCause = .fetchBounds) ∧
    ∃ s t : State, s.run = .running ∧ step s = .next t ∧ t.run = .faulted ∧ t.faultCause = .stackUnderflow := by
  obtain ⟨t, ht, h⟩ := of_stepGives (s := { State.reset with pc := 0xFFF })
    (p := fun t => t.run == .faulted && t.faultCause == .fetchBounds) (by decide)
  obtain ⟨u, hu, h'⟩ := of_stepGives (s := placed State.reset 0x00EE)
    (p := fun t => t.run == .faulted && t.faultCause == .stackUnderflow) (by decide)
  simp only [Bool.and_eq_true, beq_iff_eq] at h h'
  exact ⟨⟨_, t, rfl, ht, h⟩, _, u, rfl, hu, h'⟩

/-- Each condition of R110 holds at its boundary, in a running state. -/
theorem witness_faultsExactlyOnTheirConditions :
    faultCondition { State.reset with pc := 0xFFF } .fetchBounds ∧
    faultCondition (placed (scene [] 0xFFE []) 0xF033) .dataBounds ∧
    faultCondition (placed { State.reset with sp := 16 } 0x2300) .stackOverflow ∧
    faultCondition (placed State.reset 0x00EE) .stackUnderflow ∧
    faultCondition (placed (scene [(0, 63)] 0x300 [0x40]) 0xD011) .fbRange ∧
    faultCondition (placed (withRegs State.reset [(0, 16)]) 0xE09E) .keyRange := by
  refine ⟨?_, ?_, ?_, ?_, ?_, ?_⟩
  · show (0xFFF : Word).toNat + 1 > 0xFFF
    decide
  · exact ⟨by decide, .inl (by decide)⟩
  · exact ⟨by decide, by decide, rfl⟩
  · exact ⟨by decide, by decide, rfl⟩
  · exact ⟨by decide, by decide, .inr (by decide), 0, 1, by decide, by decide, by decide, .inl (by decide)⟩
  · exact ⟨by decide, .inl (by decide), by decide⟩

/-- Each clause at the first value that faults. -/
theorem witness_instructionsTakeTheirFaults :
    State.reset.sp.val = 0 ∧ ({ State.reset with sp := 16 } : State).sp.val = 16 ∧
    (scene [] 0xFFE []).iReg.toNat + 2 > 0xFFF ∧ (scene [] 0xFF1 []).iReg.toNat + (15 : Reg).val > 0xFFF ∧
    ((withRegs State.reset [(0, 16)]).reg 0).toNat > 15 ∧
    ((2 : Nibble).toNat > 0 ∧ (scene [] 0xFFF []).iReg.toNat + (2 : Nibble).toNat - 1 > 0xFFF) ∧
    ∃ px py, (scene [(0, 64)] 0xFFF [0x80]).iReg.toNat + (1 : Nibble).toNat ≤ 0x1000 ∧
      spriteHits ((scene [(0, 64)] 0xFFF [0x80]).reg 0).toNat ((scene [(0, 64)] 0xFFF [0x80]).reg 1).toNat
        ((scene [(0, 64)] 0xFFF [0x80]).mem.readBytes 0xFFF 1) px py ∧ (px > 63 ∨ py > 31) := by
  refine ⟨rfl, rfl, by decide, by decide, by decide, by decide, 64, 0, by decide, ?_, .inl (by decide)⟩
  exact ⟨0, 0, by decide, by decide, by decide, by decide, by decide⟩

/-- For the three invariants of a step, and the two rules on every step: a state that meets them, and a step. -/
theorem witness_stepInvariants : ∃ s t : State, s.Inv ∧ step s = .next t := by
  obtain ⟨t, ht, -⟩ := of_stepGives (s := placed State.reset 0x2300) (p := fun _ => true) (by decide)
  exact ⟨placed State.reset 0x2300, t, ⟨by decide, ⟨by decide, by decide⟩, ⟨rfl, rfl, rfl⟩⟩, ht⟩

/-- A faulted state that meets the invariants: the record of a 00EE that had nothing to pop. -/
theorem witness_stepInvariants_faulted : ∃ s t : State, s.Inv ∧ s.run = .faulted ∧ step s = .next t := by
  refine ⟨(placed State.reset 0x00EE).faultedWith .stackUnderflow 0x00EE, _, ⟨by decide, ⟨by decide, by decide⟩, ?_⟩, rfl,
    step_faulted rfl⟩
  exact ⟨by decide, rfl, by decide, fun _ => rfl⟩

/-- A table the host may give: the default one. -/
def defaultGlyphs : Vector Byte 80 := ⟨glyphTable.toArray, rfl⟩

/-- Each of the five actions, from the session right after reset. -/
theorem witness_hostActionsKeepInvariants : State.reset.Inv ∧
    ∀ a ∈ [HostAction.reset defaultGlyphs, .load [0x12, 0x00], .keySet 15 true, .redrawClear, .step],
      ∃ v : Session, (⟨State.reset, false, false⟩ : Session).act a = .next v := by
  refine ⟨⟨by decide, ⟨by decide, by decide⟩, ⟨rfl, rfl, rfl⟩⟩, fun a ha => ?_⟩
  have h : actGives ⟨State.reset, false, false⟩ a (fun _ => true) = true := by
    fin_cases ha
    · rfl
    · decide
    · decide
    · rfl
    · decide
  obtain ⟨v, hv, -⟩ := of_actGives h
  exact ⟨v, hv⟩

/-- The default table, and a faulted machine that Reset makes run. -/
theorem witness_resetAlwaysRestartsTheMachine : defaultGlyphs.toList = glyphTable ∧
    ∃ u v : Session, u.core.run = .faulted ∧ u.act (.reset defaultGlyphs) = .next v ∧ v.core.run = .running :=
  ⟨rfl, ⟨State.reset.faultedWith .keyRange 0xE09E, true, true⟩, _, rfl, rfl, rfl⟩

theorem witness_redrawSetExactlyByDisplayInstructions : ∃ s t : State, step s = .next t ∧ s.redraw = false ∧
    t.redraw = true := by
  obtain ⟨t, ht, h⟩ := of_stepGives (s := placed State.reset 0x00E0) (p := fun t => t.redraw) (by decide)
  exact ⟨_, t, ht, rfl, h⟩

/-- A flag writer and an instruction whose `X` names `V[0xF]`. -/
theorem witness_flagRegisterWriters :
    (∃ s t : State, exec (.addVxVy 0 0) s = .next t ∧ t.reg 0xF ≠ s.reg 0xF) ∧
    ∃ s t : State, exec (.ldVxNn 15 1) s = .next t ∧ t.reg 0xF ≠ s.reg 0xF :=
  ⟨⟨withRegs State.reset [(0, 0xFF)], _, rfl, by decide⟩, State.reset, _, rfl, by decide⟩

/-- A result beside the flag, and 8XY4 aimed at it. -/
theorem witness_flagIsZeroOrOne : ∃ t u : State, writesFlag (.shr 1 0) = true ∧ (0xF : Reg) ∉ destRegs (.shr 1 0) ∧
    State.reset.run = .running ∧ exec (.shr 1 0) State.reset = .next t ∧ t.run = .running ∧
    exec (.addVxVy 15 1) State.reset = .next u ∧ u.run = .running :=
  ⟨_, _, rfl, by decide, rfl, rfl, rfl, rfl, rfl⟩

/-- Bytes that change: the last byte FX33 stores, and the last byte FX55 stores, at the top of memory. -/
theorem witness_memoryChangedOnlyByStores :
    (∃ s t : State, exec (.ldBVx 0) s = .next t ∧ t.mem.read 0xFFF ≠ s.mem.read 0xFFF) ∧
    ∃ s t : State, exec (.ldMemVx 15) s = .next t ∧ t.mem.read 0xFFF ≠ s.mem.read 0xFFF := by
  obtain ⟨t, ht, h⟩ := of_execGives (i := .ldBVx 0) (s := scene [(0, 3)] 0xFFD []) (p := fun t => t.mem.read 0xFFF == 3)
    (by decide)
  obtain ⟨u, hu, h'⟩ := of_execGives (i := .ldMemVx 15) (s := scene [(15, 3)] 0xFF0 [])
    (p := fun t => t.mem.read 0xFFF == 3) (by decide)
  rw [beq_iff_eq] at h h'
  refine ⟨⟨_, t, ht, ?_⟩, _, u, hu, ?_⟩
  · rw [h]; decide
  · rw [h']; decide

/-- A change of each piece of state named. -/
theorem witness_specialStateChangedOnlyByItsInstructions :
    (execGives (.ldINnn 1) State.reset (fun t => t.iReg != 0) = true) ∧
    (execGives (.call 0x300) State.reset (fun t => t.sp != 0 && t.stack[0] != 0) = true) ∧
    (execGives (.ldDtVx 0) (withRegs State.reset [(0, 1)]) (fun t => t.dt != 0) = true) ∧
    (execGives (.ldStVx 0) (withRegs State.reset [(0, 1)]) (fun t => t.st != 0) = true) ∧
    (execGives (.drw 0 0 1) State.reset (fun t => t.fb.pixel 0 0) = true) := by decide

theorem witness_programCounterAfterInstruction :
    (execGives (.jp 0x300) State.reset (fun t => t.run == .running) = true) ∧
    (execGives (.ret) { State.reset with sp := 16 } (fun t => t.run == .running) = true) ∧
    (execGives (.skp 0) State.reset (fun t => t.run == .running) = true) ∧
    (execGives (.ldVxK 0) State.reset (fun t => t.run == .running) = true) ∧ State.reset.run = .running := by decide

/-- A destination that is not the flag register, and one that is. -/
theorem witness_flagAliasing : (0 : Reg) ≠ 0xF ∧ ¬ ((15 : Reg) ≠ 0xF) := by decide

/-- A rejected word, and one of the ambiguous-decode class. -/
theorem witness_unrecognizedWordsByFamily : (∃ e, decodeWord 0x812F = .error e) ∧ ambiguousWord 0x01E0 = true :=
  ⟨⟨_, test_decode_rejects_gaps.2.1⟩, by decide⟩

theorem witness_returnPops : 0 < (1 : Fin 17).val ∧ 0 < (16 : Fin 17).val := by decide

theorem witness_callPushes : State.reset.sp.val < 16 ∧ ({ State.reset with sp := 15 } : State).sp.val < 16 := by decide

/-- The state after the call itself; and one that an ANNN has run in since. -/
theorem witness_callThenReturn : ∃ t u : State, State.reset.sp.val < 16 ∧ exec (.call 0x300) State.reset = .next t ∧
    exec (.ldINnn 1) t = .next u ∧ u.sp = t.sp ∧ u.stack = t.stack :=
  ⟨_, _, by decide, rfl, rfl, rfl, rfl⟩

theorem witness_storeDecimalDigits : (scene [(0, 123)] 0xFFD []).iReg.toNat + 2 ≤ 0xFFF := by decide

/-- FX55 and FX65 at the top of memory: sixteen registers, and one. -/
theorem witness_storeAndLoadRegisters : (scene [] 0xFF0 []).iReg.toNat + (15 : Reg).val ≤ 0xFFF ∧
    (scene [] 0xFFF []).iReg.toNat + (0 : Reg).val ≤ 0xFFF := by decide

theorem witness_storeThenLoadRoundTrip : ∃ t u : State, (scene [(0, 1)] 0x400 []).iReg.toNat + (2 : Reg).val ≤ 0xFFF ∧
    exec (.ldMemVx 2) (scene [(0, 1)] 0x400 []) = .next t ∧ exec (.ldVxNn 0 0) t = .next u ∧
    u.iReg = t.iReg ∧ ∀ a, u.mem.read a = t.mem.read a := by
  obtain ⟨t, ht, -⟩ := of_execGives (i := .ldMemVx 2) (s := scene [(0, 1)] 0x400 []) (p := fun _ => true) (by decide)
  exact ⟨t, _, by decide, ht, rfl, rfl, fun _ => rfl⟩

/-- FX55: the fourth step of program P7, in its state, and the very next fetch. -/
theorem witness_storeIsSeenByTheNextFetch : ∃ s t : State, s.run = .running ∧ s.canFetch ∧
    decodeWord s.wordAtPc = .ok (.ldMemVx 1) ∧ regsUpTo s 1 = [0x12, 0x08] ∧ s.iReg = s.pc + 2 ∧ step s = .next t ∧
    t.run = .running ∧ t.canFetch := by
  obtain ⟨t, ht, h⟩ := of_stepGives (s := placed { scene [(0, 0x12), (1, 0x08)] 0x208 [] with pc := 0x206 } 0xF155)
    (p := fun t => t.run == .running && decide t.canFetch) (by decide)
  simp only [Bool.and_eq_true, beq_iff_eq, decide_eq_true_eq] at h
  exact ⟨_, t, rfl, by decide, by decide, by decide, by decide, ht, h⟩

/-- FX33 whose first digit falls on the second byte of the next word, at the top of memory. -/
theorem witness_storeIsSeenByTheNextFetch_digits : ∃ s t : State, s.run = .running ∧ s.canFetch ∧
    decodeWord s.wordAtPc = .ok (.ldBVx 0) ∧ decimalDigits (s.reg 0) = [2, 3, 4] ∧ s.iReg = s.pc + 3 ∧
    s.iReg = 0xFFD ∧ step s = .next t ∧ t.run = .running ∧ t.canFetch := by
  obtain ⟨t, ht, h⟩ := of_stepGives (s := placed { scene [(0, 234)] 0xFFD [] with pc := 0xFFA } 0xF033)
    (p := fun t => t.run == .running && decide t.canFetch) (by decide)
  simp only [Bool.and_eq_true, beq_iff_eq, decide_eq_true_eq] at h
  exact ⟨_, t, rfl, by decide, by decide, by decide, by decide, rfl, ht, h⟩

theorem inside_of {x0 y0 : Nat} {bytes : List Byte}
    (h : (spriteTargets x0 y0 bytes).all inFramebuffer = true) (x y : Nat) (hit : spriteHits x0 y0 bytes x y) :
    x < 64 ∧ y < 32 := by
  have := List.all_eq_true.1 h (x, y) (mem_spriteTargets.2 hit)
  simpa [inFramebuffer] using this

/-- TD8's position, the last one a row of four set bits fits at. -/
theorem witness_blitTogglesExactlyTheSetBits :
    (∀ x y, spriteHits 60 31 [0xF0] x y → x < 64 ∧ y < 32) ∧ spriteHits 60 31 [0xF0] 63 31 :=
  ⟨inside_of (by decide), 0, 3, by decide, by decide, by decide, by decide, by decide⟩

/-- TD8, and TD7: no rows and an address past memory. -/
theorem witness_drawSprite :
    ((scene [(0, 60), (1, 31)] 0x300 [0xF0]).iReg.toNat + (1 : Nibble).toNat - 1 ≤ 0xFFF ∧
      ∀ px py, spriteHits ((scene [(0, 60), (1, 31)] 0x300 [0xF0]).reg 0).toNat
        ((scene [(0, 60), (1, 31)] 0x300 [0xF0]).reg 1).toNat
        ((scene [(0, 60), (1, 31)] 0x300 [0xF0]).mem.readBytes 0x300 1) px py → px < 64 ∧ py < 32) ∧
    ∀ px py, spriteHits ((scene [(0, 200)] 0xFFFF []).reg 0).toNat ((scene [(0, 200)] 0xFFFF []).reg 0).toNat
      ((scene [(0, 200)] 0xFFFF []).mem.readBytes 0xFFFF (0 : Nibble).toNat) px py → px < 64 ∧ py < 32 :=
  ⟨⟨by decide, inside_of (by decide)⟩, inside_of (by decide)⟩

/-- TD3 and TD4: the second draw takes the state the first left. -/
theorem witness_drawTwiceRestores : ∃ s t u v : State, s.run = .running ∧ exec (.drw 0 1 2) s = .next t ∧
    t.run = .running ∧ u.fb = t.fb ∧ u.run = .running ∧ u.reg 0 = s.reg 0 ∧ u.reg 1 = s.reg 1 ∧ u.iReg = s.iReg ∧
    (∀ a, u.mem.read a = s.mem.read a) ∧ exec (.drw 0 1 2) u = .next v := by
  obtain ⟨t, ht, h⟩ := of_execGives (i := .drw 0 1 2) (s := scene [(0, 10), (1, 5)] 0x300 [0xC0, 0x81])
    (p := fun t => t.run == .running) (by decide)
  let u : State := { scene [(0, 10), (1, 5)] 0x300 [0xC0, 0x81] with fb := t.fb }
  obtain ⟨r, hr, -⟩ := exec_complete (.drw 0 1 2) u
  obtain ⟨v, hv⟩ : ∃ v, exec (.drw 0 1 2) u = .next v := by rw [hr]; cases r <;> exact ⟨_, rfl⟩
  exact ⟨_, t, u, v, rfl, ht, by simpa using h, rfl, rfl, rfl, rfl, rfl, fun _ => rfl, hv⟩

/-- Both codes at the end of the range, one down, one up. -/
theorem witness_skipsOnKey : ((withRegs State.reset [(0, 15)]).reg 0).toNat < 16 ∧ (State.reset.reg 0).toNat < 16 := by
  decide

/-- Key 15, the highest; key 0 alone; and none. -/
theorem witness_waitForKey :
    ((State.reset.keys.set 15 true)[(15 : Reg).val] = true ∧
      ∀ j : Reg, 15 < j → (State.reset.keys.set 15 true)[j.val] = false) ∧
    ((State.reset.keys.set 0 true)[(0 : Reg).val] = true ∧
      ∀ j : Reg, 0 < j → (State.reset.keys.set 0 true)[j.val] = false) ∧
    ∀ k : Reg, State.reset.keys[k.val] = false := by decide

theorem witness_waitingMovesOnlyTheTimers : (placed { State.reset with dt := 5 } 0xF20A).waiting :=
  ⟨rfl, by decide, ⟨2, by decide⟩, by decide⟩

/-- The longest program; and each way to break the contract. -/
theorem witness_loadCopiesTheProgram :
    State.reset.run = .running ∧ (List.replicate 3584 (0 : Byte)).length ≤ 3584 ∧
    (State.reset.faultedWith .keyRange 0).run = .faulted ∧ (⟨State.reset, true, false⟩ : Session).stepped = true ∧
    (⟨State.reset, false, true⟩ : Session).loaded = true ∧ (List.replicate 3585 (0 : Byte)).length > 3584 := by
  rw [List.length_replicate, List.length_replicate]
  decide

theorem witness_keySetAndRedrawClear : 16 > 15 ∧ (1 : Reg) ≠ 0 := by decide

theorem witness_conventionalEndIsStable : (placed State.reset 0x1200).atEnd :=
  ⟨rfl, by decide, 0x200, by decide, by decide⟩

end Sys2Proof.Tests
end

section
/-! PROOFS. The state's rules (spec 10_state.md): what an instruction can leave and its frame, that the decoder drops
no bit, the invariants of a step and of the host's actions, and the obligations settled from them. -/

namespace Sys2Proof.Machine

/-! ## What an instruction can leave, said once -/

/-- The causes an instruction can raise (R110, codes 2 to 6): all but the reset value and the fetch's own. -/
abbrev FaultCause.OfInstr (c : FaultCause) : Prop := c ≠ .noFault ∧ c ≠ .fetchBounds

/-- The states `t` that an instruction can leave when it completes in `s`, each with the condition it completes on.
An instruction that cannot fault leaves just the one `exec` answers. -/
def Completes (s t : State) : Instr → Prop
  | .ret => ∃ h : s.sp.val ≠ 0,
      t = { s with sp := ⟨s.sp.val - 1, by omega⟩, pc := s.stack[s.sp.val - 1] }
  | .call nnn => ∃ h : s.sp.val < 16,
      t = { s with stack := s.stack.set s.sp.val (s.pc + 2), sp := ⟨s.sp.val + 1, Nat.succ_lt_succ h⟩, pc := zext12 nnn }
  | .skp x => ∃ h : (s.reg x).toNat < 16, t = s.skipIf s.keys[(s.reg x).toNat]
  | .sknp x => ∃ h : (s.reg x).toNat < 16, t = s.skipIf (!s.keys[(s.reg x).toNat])
  | .drw x y n => ∃ p : Bool × Framebuffer, (n.toNat = 0 ∨ baseAddr s + n.toNat ≤ 4096) ∧
      blit s.fb (s.reg x).toNat (s.reg y).toNat (s.mem.readBytes (baseAddr s) n.toNat) = .ok p ∧
      t = ((s.display p.2).setReg flagReg (flagByte p.1)).advance
  | .ldVxK x => (highestKeyDown s = none ∧ t = s) ∨
      ∃ k, highestKeyDown s = some k ∧ t = (s.setReg x (keyByte k)).advance
  | .ldBVx x => baseAddr s + 3 ≤ 4096 ∧
      t = { s with mem := s.mem.writeBytes (baseAddr s) (decimalDigits (s.reg x)) }.advance
  | .ldMemVx x => baseAddr s + (x.val + 1) ≤ 4096 ∧
      t = { s with mem := s.mem.writeBytes (baseAddr s) (regsUpTo s x) }.advance
  | .ldVxMem x => baseAddr s + (x.val + 1) ≤ 4096 ∧
      t = (loadRegs s 0 (s.mem.readBytes (baseAddr s) (x.val + 1))).advance
  | i => exec i s = .next t

/-! ### The shared operations: what a success tells, and the one cause of a failure -/

theorem memRead_eq_ok {s : State} {a n : Nat} {bs : List Byte} (h : memRead s a n = .ok bs) :
    (n = 0 ∨ a + n ≤ 4096) ∧ bs = s.mem.readBytes a n := by
  rw [memRead_eq] at h
  split at h
  · next hok => exact ⟨hok, by injection h with h; exact h.symm⟩
  · cases h

theorem memRead_cause {s : State} {a n : Nat} {c : FaultCause} (h : memRead s a n = .error c) : c = .dataBounds := by
  rw [memRead_eq] at h
  split at h <;> cases h
  rfl

theorem memWrite_eq_ok {s t : State} {a : Nat} {bs : List Byte} (h : memWrite s a bs = .ok t) :
    (bs.length = 0 ∨ a + bs.length ≤ 4096) ∧ t = { s with mem := s.mem.writeBytes a bs } := by
  rw [memWrite_eq] at h
  split at h
  · next hok => exact ⟨hok, by injection h with h; exact h.symm⟩
  · cases h

theorem memWrite_cause {s : State} {a : Nat} {bs : List Byte} {c : FaultCause} (h : memWrite s a bs = .error c) :
    c = .dataBounds := by
  rw [memWrite_eq] at h
  split at h <;> cases h
  rfl

theorem keyDown_eq_ok {s : State} {k : Byte} {b : Bool} (h : keyDown s k = .ok b) :
    ∃ hk : k.toNat < 16, b = s.keys[k.toNat] := by
  unfold keyDown at h
  split at h
  · next hk => exact ⟨hk, by injection h with h; exact h.symm⟩
  · cases h

theorem keyDown_cause {s : State} {k : Byte} {c : FaultCause} (h : keyDown s k = .error c) : c = .keyRange := by
  unfold keyDown at h
  split at h <;> cases h
  rfl

theorem blit_cause {fb : Framebuffer} {x0 y0 : Nat} {bs : List Byte} {c : FaultCause}
    (h : blit fb x0 y0 bs = .error c) : c = .fbRange := by
  rcases blit_cases fb x0 y0 bs with ⟨hb, -⟩ | ⟨hb, -⟩ <;> rw [hb] at h <;> cases h
  rfl

/-! ### The result of an instruction -/

/-- What an instruction makes of a state: a state it can complete in, or a cause an instruction can raise. -/
structure ResultOf (i : Instr) (s : State) (r : Except FaultCause State) : Prop where
  exec_eq : exec i s = complete i s r
  completes : ∀ t, r = .ok t → Completes s t i
  cause : ∀ c, r = .error c → c.OfInstr

/-- The result of an instruction that cannot fault. -/
theorem result_of_next {i : Instr} {s t : State} (h : exec i s = .next t) (hc : Completes s t i) :
    ∃ r, ResultOf i s r :=
  ⟨.ok t, h, by rintro _ ⟨⟩; exact hc, by rintro _ ⟨⟩⟩

/-- The result of an instruction that maps the answer of a shared operation. -/
theorem result_of_map {α : Type} {i : Instr} {s : State} {e : Except FaultCause α} {f : α → State}
    (h : exec i s = complete i s (e.map f)) (hok : ∀ a, e = .ok a → Completes s (f a) i)
    (herr : ∀ c, e = .error c → c.OfInstr) : ∃ r, ResultOf i s r := by
  cases e with
  | ok a => exact ⟨.ok (f a), h, by rintro _ ⟨⟩; exact hok a rfl, by rintro _ ⟨⟩⟩
  | error c => exact ⟨.error c, h, by rintro _ ⟨⟩, by rintro _ ⟨⟩; exact herr c rfl⟩

theorem drw_result (x y : Reg) (n : Nibble) (s : State) : ∃ r, ResultOf (.drw x y n) s r := by
  cases hm : memRead s (baseAddr s) n.toNat with
  | error c =>
    refine ⟨.error c, by rw [exec, execDrw, hm]; rfl, by rintro _ ⟨⟩, ?_⟩
    rintro _ ⟨⟩
    exact memRead_cause hm ▸ by decide
  | ok bs =>
    obtain ⟨hfit, rfl⟩ := memRead_eq_ok hm
    exact result_of_map (by rw [exec, execDrw, hm]; rfl) (fun p hp => ⟨p, hfit, hp, rfl⟩)
      (fun c hc => blit_cause hc ▸ by decide)

/-- Every instruction has a result in every state. -/
theorem exists_result (i : Instr) (s : State) : ∃ r, ResultOf i s r := by
  cases i
  case ret =>
    refine result_of_map rfl (fun p hp => ?_) (fun c hc => (popReturn_error hc).2 ▸ by decide)
    obtain ⟨hs, rfl⟩ := popReturn_ok hp
    exact ⟨hs, rfl⟩
  case call nnn =>
    refine result_of_map rfl (fun u hu => ?_) (fun c hc => (pushReturn_error hc).2 ▸ by decide)
    obtain ⟨hs, rfl⟩ := pushReturn_ok hu
    exact ⟨hs, rfl⟩
  case skp x =>
    refine result_of_map rfl (fun d hd => ?_) (fun c hc => keyDown_cause hc ▸ by decide)
    obtain ⟨hk, rfl⟩ := keyDown_eq_ok hd
    exact ⟨hk, rfl⟩
  case sknp x =>
    refine result_of_map rfl (fun d hd => ?_) (fun c hc => keyDown_cause hc ▸ by decide)
    obtain ⟨hk, rfl⟩ := keyDown_eq_ok hd
    exact ⟨hk, rfl⟩
  case ldBVx x =>
    refine result_of_map rfl (fun u hu => ?_) (fun c hc => memWrite_cause hc ▸ by decide)
    obtain ⟨hfit, rfl⟩ := memWrite_eq_ok hu
    exact ⟨by simpa using hfit, rfl⟩
  case ldMemVx x =>
    refine result_of_map rfl (fun u hu => ?_) (fun c hc => memWrite_cause hc ▸ by decide)
    obtain ⟨hfit, rfl⟩ := memWrite_eq_ok hu
    exact ⟨by simpa using hfit, rfl⟩
  case ldVxMem x =>
    refine result_of_map rfl (fun bs hbs => ?_) (fun c hc => memRead_cause hc ▸ by decide)
    obtain ⟨hfit, rfl⟩ := memRead_eq_ok hbs
    exact ⟨by simpa using hfit, rfl⟩
  case drw x y n => exact drw_result x y n s
  case ldVxK x =>
    cases hk : highestKeyDown s with
    | none => exact result_of_next (by rw [exec, execLdVxK, hk]) (.inl ⟨hk, rfl⟩)
    | some k => exact result_of_next (by rw [exec, execLdVxK, hk]) (.inr ⟨k, hk, rfl⟩)
  all_goals exact result_of_next rfl rfl

/-- An instruction completes, or has a fault of its own taken in the state before it. -/
theorem exec_completes_or_faults {i : Instr} {s t : State} (h : exec i s = .next t) :
    Completes s t i ∨ ∃ c : FaultCause, c.OfInstr ∧ t = raiseFault c (encode i) s := by
  obtain ⟨r, hr⟩ := exists_result i s
  rw [hr.exec_eq] at h
  rcases complete_next h with ht | ⟨c, hc, rfl⟩
  · exact .inl (hr.completes t ht)
  · exact .inr ⟨c, hr.cause c hc, rfl⟩

/-- An instruction that leaves the machine running has completed. -/
theorem completes_of_running {i : Instr} {s t : State} (h : exec i s = .next t) (ht : t.run = .running) :
    Completes s t i := by
  rcases exec_completes_or_faults h with hc | ⟨c, -, rfl⟩
  · exact hc
  · cases ht

/-- A property is kept by a step when fault entry, stepping over a word and every completed instruction keep it. -/
theorem step_keeps {P : State → Prop} {s t : State} (h : step s = .next t) (hs : P s)
    (hfault : ∀ c w, P (raiseFault c w s)) (hskip : s.canFetch → P (timerPhase s.advance))
    (hinstr : ∀ i u, s.run = .running → s.canFetch → exec i s = .next u → u.run = .running → P (timerPhase u)) :
    P t := by
  rcases step_cases h with ⟨-, rfl⟩ | ⟨-, -, rfl⟩ | ⟨-, hf, -, rfl⟩ | ⟨hr, hf, i, u, -, hx, hu, rfl⟩ |
    ⟨-, -, i, c, -, -, rfl⟩
  · exact hs
  · exact hfault _ _
  · exact hskip hf
  · exact hinstr i u hr hf hx hu
  · exact hfault _ _

end Sys2Proof.Machine

namespace Sys2Proof

/-! ## What a row of R48 builds encodes to the word it was read from -/

/-- The encoder gives back every word the row selects. -/
def OpcodeRow.Inverted (r : OpcodeRow) : Prop := ∀ w, r.selects w = true → encode (r.build w) = w

theorem inverted_of_NNN {p : Word} (hp : p &&& 0x0FFF = 0) {f : Addr12 → Instr}
    (hf : ∀ nnn, encode (f nnn) = formatNNN (opField p) nnn) :
    OpcodeRow.Inverted ⟨0xF000, p, fun w => f (nnnField w)⟩ := fun w hw => by
  have hop : opField w = opField p := (mask_F000 hp).1 (eq_of_beq hw)
  change encode (f (nnnField w)) = w
  rw [hf, ← hop, formatNNN_fields]

theorem inverted_of_XNN {p : Word} (hp : p &&& 0x0FFF = 0) {f : Reg → Byte → Instr}
    (hf : ∀ x nn, encode (f x nn) = formatXNN (opField p) x nn) :
    OpcodeRow.Inverted ⟨0xF000, p, fun w => f (xField w) (nnField w)⟩ := fun w hw => by
  have hop : opField w = opField p := (mask_F000 hp).1 (eq_of_beq hw)
  change encode (f (xField w) (nnField w)) = w
  rw [hf, ← hop, formatXNN_fields]

theorem inverted_of_XYN {p : Word} (hp : p &&& 0x0FFF = 0) {f : Reg → Reg → Nibble → Instr}
    (hf : ∀ x y n, encode (f x y n) = formatXYN (opField p) x y n) :
    OpcodeRow.Inverted ⟨0xF000, p, fun w => f (xField w) (yField w) (nField w)⟩ := fun w hw => by
  have hop : opField w = opField p := (mask_F000 hp).1 (eq_of_beq hw)
  change encode (f (xField w) (yField w) (nField w)) = w
  rw [hf, ← hop, formatXYN_fields]

theorem inverted_of_XY {p : Word} (hp : p &&& 0x0FF0 = 0) {f : Reg → Reg → Instr}
    (hf : ∀ x y, encode (f x y) = formatXYN (opField p) x y (nField p)) :
    OpcodeRow.Inverted ⟨0xF00F, p, fun w => f (xField w) (yField w)⟩ := fun w hw => by
  obtain ⟨hop, hn⟩ := (mask_F00F hp).1 (eq_of_beq hw)
  change encode (f (xField w) (yField w)) = w
  rw [hf, ← hop, ← hn, formatXYN_fields]

theorem inverted_of_X {p : Word} (hp : p &&& 0x0F00 = 0) {f : Reg → Instr}
    (hf : ∀ x, encode (f x) = formatX (opField p) x (nnField p)) :
    OpcodeRow.Inverted ⟨0xF0FF, p, fun w => f (xField w)⟩ := fun w hw => by
  obtain ⟨hop, hnn⟩ := (mask_F0FF hp).1 (eq_of_beq hw)
  change encode (f (xField w)) = w
  rw [hf, ← hop, ← hnn, formatX_fields]

theorem inverted_of_word {p : Word} {i : Instr} (hi : encode i = p) :
    OpcodeRow.Inverted ⟨0xFFFF, p, fun _ => i⟩ := fun w hw =>
  hi.trans ((mask_FFFF w p).1 (eq_of_beq hw)).symm

theorem inverted_opcodeRowsLow : ∀ r ∈ opcodeRowsLow, r.Inverted := by
  simp only [opcodeRowsLow, List.forall_mem_cons]
  exact ⟨inverted_of_word rfl, inverted_of_word rfl, inverted_of_NNN rfl fun _ => rfl, inverted_of_NNN rfl fun _ => rfl,
    inverted_of_XNN rfl fun _ _ => rfl, inverted_of_XNN rfl fun _ _ => rfl, inverted_of_XY rfl fun _ _ => rfl,
    inverted_of_XNN rfl fun _ _ => rfl, inverted_of_XNN rfl fun _ _ => rfl, List.forall_mem_nil _⟩

theorem inverted_opcodeRowsAlu : ∀ r ∈ opcodeRowsAlu, r.Inverted := by
  simp only [opcodeRowsAlu, List.forall_mem_cons]
  refine ⟨?_, ?_, ?_, ?_, ?_, ?_, ?_, ?_, ?_, ?_, List.forall_mem_nil _⟩ <;>
    exact inverted_of_XY rfl fun _ _ => rfl

theorem inverted_opcodeRowsHigh : ∀ r ∈ opcodeRowsHigh, r.Inverted := by
  simp only [opcodeRowsHigh, List.forall_mem_cons]
  refine ⟨inverted_of_NNN rfl fun _ => rfl, inverted_of_NNN rfl fun _ => rfl, inverted_of_XNN rfl fun _ _ => rfl,
    inverted_of_XYN rfl fun _ _ _ => rfl, ?_, ?_, ?_, ?_, ?_, ?_, ?_, ?_, ?_, ?_, ?_, List.forall_mem_nil _⟩ <;>
    exact inverted_of_X rfl fun _ => rfl

/-- An instruction read from a word encodes to that word: the decoder drops no bit. -/
theorem encode_of_decodeWord {w : Word} {i : Instr} (h : decodeWord w = .ok i) : encode i = w := by
  obtain ⟨r, hr, hsel, rfl⟩ := decodeWord_ok h
  rw [opcodeRows, List.mem_append, List.mem_append] at hr
  rcases hr with (hr | hr) | hr
  · exact inverted_opcodeRowsLow r hr w hsel
  · exact inverted_opcodeRowsAlu r hr w hsel
  · exact inverted_opcodeRowsHigh r hr w hsel

end Sys2Proof

namespace Sys2Proof.Machine

/-! ## Frames of the shared updates -/

theorem Frame.refl (c : Touched) (s : State) : Frame c s s where
  regs _ _ := rfl
  iReg _ := rfl
  stack _ := ⟨rfl, rfl⟩
  dt _ := rfl
  st _ := rfl
  display _ := ⟨rfl, rfl⟩
  memory _ _ := rfl
  draws _ := rfl
  keys := rfl
  run := rfl
  record := ⟨rfl, rfl, rfl⟩

/-- A frame says nothing of `pc`, so advancing keeps it. -/
theorem Frame.advance {c : Touched} {s t : State} (h : Frame c s t) : Frame c s t.advance := { h with }

theorem frame_jumpTo (s : State) (a : Word) : Frame {} s (s.jumpTo a) := { Frame.refl {} s with }

theorem frame_skipIf (s : State) (c : Bool) : Frame {} s (s.skipIf c) := { Frame.refl {} s with }

theorem frame_writeI (s : State) (a : Word) : Frame { iReg := true } s (s.writeI a) :=
  { Frame.refl { iReg := true } s with iReg := fun h => nomatch h }

/-- Writing a register the frame names keeps the frame. -/
theorem Frame.setReg {c : Touched} {s t : State} {x : Reg} (h : Frame c s t) (hx : x ∈ c.regs) (b : Byte) :
    Frame c s (t.setReg x b) :=
  { h with regs := fun r hr => (State.reg_setReg_of_ne t b (ne_of_mem_of_not_mem hx hr).symm).trans (h.regs r hr) }

theorem frame_writeReg (s : State) (x : Reg) (b : Byte) : Frame { regs := [x] } s (s.writeReg x b) :=
  ((Frame.refl _ s).setReg (by simp) b).advance

theorem frame_writeFlagThenReg (s : State) (x : Reg) (b : Byte) (f : Bool) :
    Frame { regs := [x, 0xF] } s (s.writeFlagThenReg x b f) :=
  (((Frame.refl _ s).setReg (by simp) _).setReg (by simp) b).advance

theorem frame_display {c : Touched} (hc : c.display = true) (s : State) (fb : Framebuffer) :
    Frame c s (s.display fb) :=
  { Frame.refl c s with display := fun h => by rw [hc] at h; cases h }

/-- Storing bytes changes no byte outside the range stored. -/
theorem frame_store (s : State) (a : Nat) (bs : List Byte) :
    Frame { stored := (a, bs.length) } s { s with mem := s.mem.writeBytes a bs } :=
  { Frame.refl _ s with memory := fun b hb => Mem.read_writeBytes_outside s.mem a b bs hb }

/-- Loading registers changes none outside those loaded. -/
theorem frame_loadRegs {c : Touched} (s : State) (k : Nat) (bs : List Byte)
    (hc : ∀ r : Reg, r ∉ c.regs → ¬ (k ≤ r.val ∧ r.val < k + bs.length)) : Frame c s (loadRegs s k bs) := by
  have hregs : ∀ r : Reg, r ∉ c.regs → (loadRegs s k bs).reg r = s.reg r := fun r hr => by
    rw [reg_loadRegs, if_neg (hc r hr)]
  rw [loadRegs_frame] at hregs ⊢
  exact { Frame.refl c s with regs := hregs }

/-! ## The frame of every instruction -/

/-- What each instruction may change, as the spec names it. -/
def touched (s : State) : Instr → Touched
  | .cls => { display := true }
  | .ret | .call _ => { stack := true }
  | .addVxVy x _ | .sub x _ | .shr x _ | .subn x _ | .shl x _ => { regs := [x, 0xF] }
  | .rnd x _ => { regs := [x], draws := true }
  | .drw _ _ _ => { regs := [0xF], display := true }
  | .ldDtVx _ => { dt := true }
  | .ldStVx _ => { st := true }
  | .ldINnn _ | .addIVx _ | .ldFVx _ => { iReg := true }
  | .ldBVx _ => { stored := (s.iReg.toNat, 3) }
  | .ldMemVx x => { stored := (s.iReg.toNat, x.val + 1) }
  | i => { regs := destRegs i }

theorem mem_destRegs_ldVxMem {r x : Reg} : r ∈ destRegs (.ldVxMem x) ↔ r ≤ x := by
  simp [destRegs]

/-- An instruction that completes changes nothing but `pc` and what the spec names. -/
theorem Completes.frame {i : Instr} {s t : State} (h : Completes s t i) : Frame (touched s i) s t := by
  cases i
  case ret => obtain ⟨-, rfl⟩ := h; exact { Frame.refl _ s with stack := fun h => nomatch h }
  case call nnn => obtain ⟨-, rfl⟩ := h; exact { Frame.refl _ s with stack := fun h => nomatch h }
  case jp nnn => cases h; exact frame_jumpTo s _
  case jpV0Nnn nnn => cases h; exact frame_jumpTo s _
  case skp x => obtain ⟨-, rfl⟩ := h; exact frame_skipIf s _
  case sknp x => obtain ⟨-, rfl⟩ := h; exact frame_skipIf s _
  case seVxNn x nn => cases h; exact frame_skipIf s _
  case sneVxNn x nn => cases h; exact frame_skipIf s _
  case seVxVy x y => cases h; exact frame_skipIf s _
  case sneVxVy x y => cases h; exact frame_skipIf s _
  case cls => cases h; exact (frame_display rfl s _).advance
  case drw x y n =>
    obtain ⟨p, -, -, rfl⟩ := h
    exact ((frame_display rfl s p.2).setReg (by simp [touched]) _).advance
  case addVxVy x y =>
    cases h
    exact (((Frame.refl _ s).setReg (by simp [touched]) _).setReg (by simp [touched]) _).advance
  case sub x y => cases h; exact frame_writeFlagThenReg s x _ _
  case shr x y => cases h; exact frame_writeFlagThenReg s x _ _
  case subn x y => cases h; exact frame_writeFlagThenReg s x _ _
  case shl x y => cases h; exact frame_writeFlagThenReg s x _ _
  case rnd x nn =>
    cases h
    exact { frame_writeReg s x _ with draws := fun h => nomatch h }
  case ldINnn nnn => cases h; exact frame_writeI s _
  case addIVx x => cases h; exact frame_writeI s _
  case ldFVx x => cases h; exact frame_writeI s _
  case ldDtVx x => cases h; exact { Frame.refl _ s with dt := fun h => nomatch h }
  case ldStVx x => cases h; exact { Frame.refl _ s with st := fun h => nomatch h }
  case ldBVx x => obtain ⟨-, rfl⟩ := h; exact (frame_store s _ (decimalDigits (s.reg x))).advance
  case ldMemVx x =>
    obtain ⟨-, rfl⟩ := h
    have hs := (frame_store s (baseAddr s) (regsUpTo s x)).advance
    rwa [length_regsUpTo] at hs
  case ldVxMem x =>
    obtain ⟨-, rfl⟩ := h
    refine (frame_loadRegs s 0 _ fun r hr => ?_).advance
    have hrx : ¬ r ≤ x := mt mem_destRegs_ldVxMem.2 hr
    rw [Fin.le_def] at hrx
    rw [Mem.length_readBytes]
    omega
  case ldVxK x =>
    rcases h with ⟨-, rfl⟩ | ⟨k, -, rfl⟩
    · exact Frame.refl _ _
    · exact frame_writeReg s x _
  all_goals
    cases h
    exact frame_writeReg s _ _

/-! ## The program counter and the stack -/

theorem skipIf_pc_eq (s : State) (c : Bool) : (s.skipIf c).pc = s.pc + 2 ∨ (s.skipIf c).pc = s.pc + 4 := by
  cases c
  · exact .inl rfl
  · exact .inr rfl

/-- Settles O28: each completed instruction's state names its `pc`. -/
theorem programCounterAfterInstruction : Obligations.ProgramCounterAfterInstruction := by
  intro i s t _ hx ht
  have h := completes_of_running hx ht
  cases i
  case jp nnn => cases h; exact toNat_zext12 nnn
  case call nnn => obtain ⟨-, rfl⟩ := h; exact toNat_zext12 nnn
  case jpV0Nnn nnn => cases h; exact toNat_offsetTarget s nnn
  case ret =>
    obtain ⟨hsp, rfl⟩ := h
    have := s.sp.isLt
    exact ⟨⟨s.sp.val - 1, by omega⟩, Nat.sub_add_cancel (Nat.pos_of_ne_zero hsp), rfl⟩
  case seVxNn x nn => cases h; exact skipIf_pc_eq s _
  case sneVxNn x nn => cases h; exact skipIf_pc_eq s _
  case seVxVy x y => cases h; exact skipIf_pc_eq s _
  case sneVxVy x y => cases h; exact skipIf_pc_eq s _
  case skp x => obtain ⟨-, rfl⟩ := h; exact skipIf_pc_eq s _
  case sknp x => obtain ⟨-, rfl⟩ := h; exact skipIf_pc_eq s _
  case ldVxK x =>
    rcases h with ⟨-, rfl⟩ | ⟨k, -, rfl⟩
    · exact .inl rfl
    · exact .inr rfl
  case drw x y n => obtain ⟨p, -, -, rfl⟩ := h; rfl
  case ldBVx x => obtain ⟨-, rfl⟩ := h; rfl
  case ldMemVx x => obtain ⟨-, rfl⟩ := h; rfl
  case ldVxMem x => obtain ⟨-, rfl⟩ := h; rw [loadRegs_frame]; rfl
  all_goals cases h; rfl

/-- Where `pc` can go (R13): nowhere, past this word, past the next, to an address up to 0x10FE, or to a return address. -/
theorem pc_after_completion {i : Instr} {s t : State} (hs : s.run = .running) (hx : exec i s = .next t)
    (ht : t.run = .running) :
    (t.pc = s.pc ∨ t.pc = s.pc + 2 ∨ t.pc = s.pc + 4) ∨ t.pc.toNat ≤ 0x10FE ∨
      ∃ k : Fin 16, t.pc = s.stack[k.val] := by
  have h := programCounterAfterInstruction i s t hs hx ht
  cases i
  case jp nnn => have := nnn.isLt; have h : t.pc.toNat = nnn.toNat := h; omega
  case call nnn => have := nnn.isLt; have h : t.pc.toNat = nnn.toNat := h; omega
  case jpV0Nnn nnn =>
    have := nnn.isLt
    have := (s.reg 0).isLt
    have h : t.pc.toNat = nnn.toNat + (s.reg 0).toNat := h
    omega
  case ret => obtain ⟨k, -, hk⟩ := h; exact .inr (.inr ⟨k, hk⟩)
  case seVxNn x nn => exact .inl (.inr h)
  case sneVxNn x nn => exact .inl (.inr h)
  case seVxVy x y => exact .inl (.inr h)
  case sneVxVy x y => exact .inl (.inr h)
  case skp x => exact .inl (.inr h)
  case sknp x => exact .inl (.inr h)
  case ldVxK x => exact .inl (h.imp_right .inl)
  all_goals exact .inl (.inr (.inl h))

/-- Only 2NNN changes a stack entry: the one at `SP`, which becomes `pc + 2` (R14, R66). -/
theorem Completes.stack {i : Instr} {s t : State} (h : Completes s t i) :
    t.stack = s.stack ∨ (∃ nnn, i = .call nnn) ∧ ∃ hs : s.sp.val < 16, t.stack = s.stack.set s.sp.val (s.pc + 2) := by
  cases i
  case call nnn => obtain ⟨hs, rfl⟩ := h; exact .inr ⟨⟨nnn, rfl⟩, hs, rfl⟩
  case ret => obtain ⟨-, rfl⟩ := h; exact .inl rfl
  all_goals exact .inl (h.frame.stack rfl).2

/-- A stack whose entries are at most 0x1000 stays one when a return address at most 0x1000 is pushed. -/
theorem stack_set_bounded {st : Vector Word 16} (hst : ∀ k : Fin 16, st[k.val].toNat ≤ 0x1000) {n : Nat} (hn : n < 16)
    {a : Word} (ha : a.toNat ≤ 0x1000) (k : Fin 16) : (st.set n a)[k.val].toNat ≤ 0x1000 := by
  rw [Vector.getElem_set]
  split
  · exact ha
  · exact hst k

theorem toNat_pc_add {s : State} (hf : s.canFetch) {n : Word} (hn : n.toNat ≤ 4) :
    (s.pc + n).toNat = s.pc.toNat + n.toNat := by
  rw [BitVec.toNat_add, Nat.mod_eq_of_lt (by omega)]

theorem completion_keeps_pcBounded {i : Instr} {s t : State} (hs : s.run = .running) (hf : s.canFetch)
    (hb : s.pcBounded) (hx : exec i s = .next t) (ht : t.run = .running) : t.pcBounded := by
  obtain ⟨hpc, hst⟩ := hb
  have h2 : (s.pc + 2).toNat = s.pc.toNat + 2 := toNat_pc_add hf (by decide)
  have h4 : (s.pc + 4).toNat = s.pc.toNat + 4 := toNat_pc_add hf (by decide)
  constructor
  · rcases pc_after_completion hs hx ht with (h | h | h) | h | ⟨k, h⟩
    · rw [h]; exact hpc
    · rw [h]; omega
    · rw [h]; omega
    · exact h
    · rw [h]; exact (hst k).trans (by decide)
  · rcases (completes_of_running hx ht).stack with h | ⟨-, hsp, h⟩
    · rw [h]; exact hst
    · rw [h]; exact stack_set_bounded hst hsp (by omega)

/-- Settles O18: no `pc` a fetch succeeds at can wrap, and every jump target and return address is bounded. -/
theorem stepKeepsProgramCounterBounded : Obligations.StepKeepsProgramCounterBounded := by
  intro s t hb h
  refine step_keeps h hb (fun _ _ => hb) (fun hf => ⟨?_, hb.2⟩) (fun i u hs hf hx hu => ?_)
  · have h2 : (s.pc + 2).toNat = s.pc.toNat + 2 := toNat_pc_add hf (by decide)
    change (s.pc + 2).toNat ≤ 0x10FE
    omega
  · exact (completion_keeps_pcBounded hs hf hb hx hu : u.pcBounded)

/-! ## The fault record -/

theorem recordConsistent_running {s : State} (h : s.run = .running) :
    s.recordConsistent ↔ s.faultCause = .noFault ∧ s.faultPc = 0 ∧ s.faultWord = 0 := by
  rw [State.recordConsistent, h]

/-- A fault entry's record is consistent when the cause and the word are those of the step. -/
theorem recordConsistent_raiseFault {c : FaultCause} {w : Word} {s : State} (hc : c ≠ .noFault)
    (hfetch : c = .fetchBounds → ¬ s.canFetch ∧ w = 0) (hinstr : c ≠ .fetchBounds → fetch s = .ok w) :
    (raiseFault c w s).recordConsistent :=
  ⟨hc, rfl, fun h => ⟨Nat.lt_of_not_le (hfetch h).1, (hfetch h).2⟩, hinstr⟩

/-- Two running states with the same record are alike in consistency. -/
theorem recordConsistent_of_record_eq {s t : State} (hi : s.recordConsistent) (hs : s.run = .running)
    (ht : t.run = .running)
    (hr : t.faultCause = s.faultCause ∧ t.faultPc = s.faultPc ∧ t.faultWord = s.faultWord) : t.recordConsistent := by
  obtain ⟨hc, hp, hw⟩ := hr
  rw [recordConsistent_running ht, hc, hp, hw]
  exact (recordConsistent_running hs).1 hi

/-- A fault entered from a running machine has a cause an instruction can raise. -/
theorem cause_of_exec_raiseFault {i : Instr} {s : State} {c : FaultCause} {w : Word} (hs : s.run = .running)
    (h : exec i s = .next (raiseFault c w s)) : c.OfInstr := by
  rcases exec_completes_or_faults h with hc | ⟨c', hc', he⟩
  · have hrun : RunState.faulted = s.run := hc.frame.run
    rw [hs] at hrun
    cases hrun
  · have : c = c' := congrArg State.faultCause he
    exact this ▸ hc'

/-- Settles O19: an instruction's fault records the word it was decoded from, and no completed instruction touches the
record. -/
theorem stepKeepsFaultRecordConsistent : Obligations.StepKeepsFaultRecordConsistent := by
  intro s t hi h
  rcases step_cases h with ⟨-, rfl⟩ | ⟨-, hf, rfl⟩ | ⟨hs, -, -, rfl⟩ | ⟨hs, -, i, u, -, hx, hu, rfl⟩ |
    ⟨hs, hf, i, c, hd, hx, rfl⟩
  · exact hi
  · exact recordConsistent_raiseFault (by decide) (fun _ => ⟨hf, rfl⟩) (fun hne => absurd rfl hne)
  · exact recordConsistent_of_record_eq hi hs hs ⟨rfl, rfl, rfl⟩
  · exact recordConsistent_of_record_eq hi hs hu (completes_of_running hx hu).frame.record
  · obtain ⟨h0, h1⟩ := cause_of_exec_raiseFault hs hx
    refine recordConsistent_raiseFault h0 (fun hc => absurd hc h1) (fun _ => ?_)
    rw [fetch_eq, if_pos hf, encode_of_decodeWord hd]

/-! ## The memory, and what the host does -/

/-- Every instruction that completes leaves the memory, or has stored bytes that fit in it. -/
theorem Completes.mem {i : Instr} {s t : State} (h : Completes s t i) :
    t.mem = s.mem ∨ ∃ bs : List Byte, baseAddr s + bs.length ≤ 4096 ∧ t.mem = s.mem.writeBytes (baseAddr s) bs := by
  cases i
  case ldBVx x => obtain ⟨hfit, rfl⟩ := h; exact .inr ⟨decimalDigits (s.reg x), by simpa using hfit, rfl⟩
  case ldMemVx x => obtain ⟨hfit, rfl⟩ := h; exact .inr ⟨regsUpTo s x, by simpa using hfit, rfl⟩
  case ldVxMem x => obtain ⟨-, rfl⟩ := h; rw [loadRegs_frame]; exact .inl rfl
  case ret => obtain ⟨-, rfl⟩ := h; exact .inl rfl
  case call nnn => obtain ⟨-, rfl⟩ := h; exact .inl rfl
  case skp x => obtain ⟨-, rfl⟩ := h; exact .inl rfl
  case sknp x => obtain ⟨-, rfl⟩ := h; exact .inl rfl
  case drw x y n => obtain ⟨p, -, -, rfl⟩ := h; exact .inl rfl
  case ldVxK x => rcases h with ⟨-, rfl⟩ | ⟨k, -, rfl⟩ <;> exact .inl rfl
  all_goals cases h; exact .inl rfl

theorem Completes.memCanonical {i : Instr} {s t : State} (h : Completes s t i) (hm : s.memCanonical) :
    t.memCanonical := by
  rcases h.mem with he | ⟨bs, hfit, he⟩
  · rw [State.memCanonical, he]; exact hm
  · rw [State.memCanonical, he]; exact Mem.wf_writeBytes hm hfit

/-- Every step keeps the memory in canonical form and inside the address space. -/
theorem step_keeps_memCanonical {s t : State} (hm : s.memCanonical) (h : step s = .next t) : t.memCanonical :=
  step_keeps h hm (fun _ _ => hm) (fun _ => hm) fun _ _ _ _ hx hu => (completes_of_running hx hu).memCanonical hm

theorem step_keeps_inv {s t : State} (hi : s.Inv) (h : step s = .next t) : t.Inv := by
  obtain ⟨hm, hp, hr⟩ := hi
  exact ⟨step_keeps_memCanonical hm h, stepKeepsProgramCounterBounded s t hp h,
    stepKeepsFaultRecordConsistent s t hr h⟩

theorem reset_pcBounded : State.reset.pcBounded := ⟨by decide, by decide⟩

theorem reset_recordConsistent : State.reset.recordConsistent := ⟨rfl, rfl, rfl⟩

/-- Settles O20: reset lists no memory cell, pushes nothing and records nothing. -/
theorem invariantsHoldAtReset : Obligations.InvariantsHoldAtReset :=
  ⟨Mem.wf_nil, reset_pcBounded, reset_recordConsistent⟩

/-- A reset over any glyph table meets the invariants: 80 bytes from address 0 fit in memory (R22, R23). -/
theorem resetWith_inv (glyphs : Vector Byte 80) (n : Nat) : ({ resetWith glyphs with draws := n } : State).Inv :=
  ⟨Mem.wf_writeBytes Mem.wf_nil (by simp [Config.memSize]), reset_pcBounded, reset_recordConsistent⟩

/-- A program of at most 3584 bytes fits in memory from 0x200 up (R42). -/
theorem loadProgram_inv {s : State} {bytes : List Byte} (hi : s.Inv) (hs : s.run = .running)
    (hlen : bytes.length ≤ Config.progMax) : (loadProgram s bytes).Inv := by
  obtain ⟨hm, hp, hr⟩ := hi
  have hfit : 0x200 + bytes.length ≤ 4096 := Nat.add_le_add_left hlen 0x200
  exact ⟨Mem.wf_writeBytes hm hfit, hp, recordConsistent_of_record_eq hr hs hs ⟨rfl, rfl, rfl⟩⟩

/-- What a `Load` that is not refused has checked (R42). -/
theorem mayLoad_eq_true {u : Session} {bytes : List Byte} (h : u.mayLoad bytes = true) :
    u.core.run = .running ∧ bytes.length ≤ Config.progMax := by
  simp only [Session.mayLoad, Bool.and_eq_true, decide_eq_true_eq] at h
  obtain ⟨⟨⟨hrun, -⟩, -⟩, hlen⟩ := h
  exact ⟨hrun, hlen⟩

/-- Settles O21: one case for each of the host's five actions. -/
theorem hostActionsKeepInvariants : Obligations.HostActionsKeepInvariants := by
  intro u v a hi h
  cases a with
  | reset glyphs => cases h; exact resetWith_inv glyphs u.core.draws
  | load bytes =>
    rw [Session.act] at h
    split at h
    · next hl =>
      obtain ⟨hs, hlen⟩ := mayLoad_eq_true hl
      cases h
      exact loadProgram_inv hi hs hlen
    · cases h
  | keySet code pressed =>
    rw [Session.act] at h
    split at h
    · cases h; exact hi
    · cases h
  | redrawClear => cases h; exact hi
  | step =>
    rw [Session.act] at h
    split at h
    · next t ht => cases h; exact step_keeps_inv hi ht
    · cases h
    · cases h

/-! ## Rules of the whole machine -/

/-- Settles O22: no fault entry, no skipped word and no instruction's frame writes a key. -/
theorem stepNeverChangesKeys : Obligations.StepNeverChangesKeys := by
  intro s t h
  exact step_keeps (P := fun t => t.keys = s.keys) h rfl (fun _ _ => rfl) (fun _ => rfl)
    fun _ _ _ _ hx hu => (completes_of_running hx hu).frame.keys

/-- The two instructions that draw: 00E0 and DXYN (R97). -/
def isDisplay : Instr → Bool
  | .cls | .drw _ _ _ => true
  | _ => false

/-- A completed 00E0 or DXYN sets the redraw flag; any other instruction leaves it. -/
theorem Completes.redraw {i : Instr} {s t : State} (h : Completes s t i) : t.redraw = (s.redraw || isDisplay i) := by
  cases i
  case cls => cases h; simp [isDisplay]
  case drw x y n => obtain ⟨p, -, -, rfl⟩ := h; simp [isDisplay]
  all_goals exact (h.frame.display rfl).2.trans (Bool.or_false _).symm

/-- The word of a draw is 0x00E0 or begins with the digit D. -/
theorem encode_of_isDisplay {i : Instr} (h : isDisplay i = true) :
    encode i = 0x00E0 ∨ opField (encode i) = 0xD := by
  cases i
  case cls => exact .inl rfl
  case drw x y n => exact .inr (opField_formatXYN _ x y n)
  all_goals cases h

/-- Only DXYN has a word that begins with the digit D. -/
theorem isDisplay_of_opField {i : Instr} (h : opField (encode i) = 0xD) : isDisplay i = true := by
  cases i
  case drw => rfl
  case cls => exact absurd h (by decide)
  case ret => exact absurd h (by decide)
  all_goals simp [encode] at h

theorem decodeWord_cls : decodeWord 0x00E0 = .ok .cls := by decide

theorem opField_of_drw_mask {w : Word} : w &&& 0xF000 = 0xD000 ↔ opField w = 0xD := mask_F000 (by decide)

/-- The instruction a word decodes to draws exactly when the word is 0x00E0 or begins with the digit D (R92, R93). -/
theorem isDisplay_iff {w : Word} {i : Instr} (hd : decodeWord w = .ok i) :
    isDisplay i = true ↔ w = 0x00E0 ∨ w &&& 0xF000 = 0xD000 := by
  have he := encode_of_decodeWord hd
  rw [opField_of_drw_mask]
  constructor
  · exact fun h => he ▸ encode_of_isDisplay h
  · rintro (rfl | h)
    · rw [decodeWord_cls] at hd; cases hd; rfl
    · exact isDisplay_of_opField (he ▸ h)

/-- A word of 00E0 or DXYN is no unrecognized word. -/
theorem decodeWord_ne_error {w : Word} (h : w = 0x00E0 ∨ w &&& 0xF000 = 0xD000) (e : DecodeError) :
    decodeWord w ≠ .error e := fun he => by
  obtain ⟨-, hrows⟩ := decodeWord_error.1 he
  rcases h with rfl | h
  · rw [decodeWord_cls] at he; cases he
  · have hsel := hrows ⟨0xF000, 0xD000, fun w => .drw (xField w) (yField w) (nField w)⟩
      (by simp [opcodeRows, opcodeRowsHigh])
    exact absurd h (beq_eq_false_iff_ne.1 hsel)

/-- Settles O23: only a completed 00E0 or DXYN writes the flag, and its word tells which it is. -/
theorem redrawSetExactlyByDisplayInstructions : Obligations.RedrawSetExactlyByDisplayInstructions := by
  intro s t h
  rcases step_cases h with ⟨hs, rfl⟩ | ⟨-, -, rfl⟩ | ⟨-, -, ⟨e, he⟩, rfl⟩ | ⟨hs, hf, i, u, hd, hx, hu, rfl⟩ |
    ⟨-, -, i, c, -, -, rfl⟩
  · simp [hs]
  · simp
  · exact ⟨.inl, fun h => h.elim id fun ⟨_, _, _, hw⟩ => absurd he (decodeWord_ne_error hw e)⟩
  · rw [← isDisplay_iff hd, timerPhase_redraw, (completes_of_running hx hu).redraw, Bool.or_eq_true]
    simp [hs, hf, hu]
  · simp

/-- The flag register is named in an instruction's frame only by a flag writer or through its destination. -/
theorem writes_flag_of_touched {i : Instr} {s : State} (h : (0xF : Reg) ∈ (touched s i).regs) :
    writesFlag i = true ∨ (0xF : Reg) ∈ destRegs i := by
  cases i
  case addVxVy => exact .inl rfl
  case sub => exact .inl rfl
  case shr => exact .inl rfl
  case subn => exact .inl rfl
  case shl => exact .inl rfl
  case drw => exact .inl rfl
  all_goals exact .inr h

/-- Settles O24: a register outside an instruction's frame is not changed. -/
theorem flagRegisterWriters : Obligations.FlagRegisterWriters := by
  intro i s t hx hne
  rcases exec_completes_or_faults hx with h | ⟨c, -, rfl⟩
  · exact writes_flag_of_touched (of_not_not fun hr => hne (h.frame.regs 0xF hr))
  · exact absurd rfl hne

theorem flagByte_eq_zero_or_one (f : Bool) : flagByte f = 0 ∨ flagByte f = 1 := by
  cases f
  · exact .inl rfl
  · exact .inr rfl

/-- The flag written last stands (R72). -/
theorem flag_of_setReg_flagReg (s : State) (f : Bool) :
    ((s.setReg flagReg (flagByte f)).advance).reg 0xF = 0 ∨ ((s.setReg flagReg (flagByte f)).advance).reg 0xF = 1 := by
  rw [State.reg_advance, flagReg_eq, State.reg_setReg_self]
  exact flagByte_eq_zero_or_one f

/-- The flag written before a result that goes elsewhere stands (R72). -/
theorem flag_of_writeFlagThenReg (s : State) {x : Reg} (hx : (0xF : Reg) ≠ x) (b : Byte) (f : Bool) :
    (s.writeFlagThenReg x b f).reg 0xF = 0 ∨ (s.writeFlagThenReg x b f).reg 0xF = 1 := by
  rw [State.reg_writeFlagThenReg, if_neg hx, if_pos flagReg_eq.symm]
  exact flagByte_eq_zero_or_one f

/-- Settles O25: what stands in `V[0xF]` is a flag byte. -/
theorem flagIsZeroOrOne : Obligations.FlagIsZeroOrOne := by
  intro i s t hw hdest _ hx ht
  have h := completes_of_running hx ht
  have hne : ∀ {x : Reg}, destRegs i = [x] → (¬ ∃ x y, i = .addVxVy x y) → (0xF : Reg) ≠ x := fun hi hadd hxf => by
    rcases hdest with hd | hd
    · rw [hi, ← hxf] at hd; exact hd List.mem_cons_self
    · exact hadd hd
  cases i
  case addVxVy x y => cases h; exact flag_of_setReg_flagReg _ _
  case drw x y n => obtain ⟨p, -, -, rfl⟩ := h; exact flag_of_setReg_flagReg _ p.1
  case sub x y => cases h; exact flag_of_writeFlagThenReg s (hne rfl (by simp)) _ _
  case shr x y => cases h; exact flag_of_writeFlagThenReg s (hne rfl (by simp)) _ _
  case subn x y => cases h; exact flag_of_writeFlagThenReg s (hne rfl (by simp)) _ _
  case shl x y => cases h; exact flag_of_writeFlagThenReg s (hne rfl (by simp)) _ _
  all_goals cases hw

theorem instr_of_touched_iReg {i : Instr} {s : State} (h : (touched s i).iReg ≠ false) :
    (∃ nnn, i = .ldINnn nnn) ∨ ∃ x, i = .addIVx x ∨ i = .ldFVx x := by
  cases i
  case ldINnn nnn => exact .inl ⟨nnn, rfl⟩
  case addIVx x => exact .inr ⟨x, .inl rfl⟩
  case ldFVx x => exact .inr ⟨x, .inr rfl⟩
  all_goals exact absurd rfl h

theorem instr_of_touched_stack {i : Instr} {s : State} (h : (touched s i).stack ≠ false) :
    i = .ret ∨ ∃ nnn, i = .call nnn := by
  cases i
  case ret => exact .inl rfl
  case call nnn => exact .inr ⟨nnn, rfl⟩
  all_goals exact absurd rfl h

theorem instr_of_touched_dt {i : Instr} {s : State} (h : (touched s i).dt ≠ false) : ∃ x, i = .ldDtVx x := by
  cases i
  case ldDtVx x => exact ⟨x, rfl⟩
  all_goals exact absurd rfl h

theorem instr_of_touched_st {i : Instr} {s : State} (h : (touched s i).st ≠ false) : ∃ x, i = .ldStVx x := by
  cases i
  case ldStVx x => exact ⟨x, rfl⟩
  all_goals exact absurd rfl h

theorem instr_of_touched_display {i : Instr} {s : State} (h : (touched s i).display ≠ false) :
    i = .cls ∨ ∃ x y n, i = .drw x y n := by
  cases i
  case cls => exact .inl rfl
  case drw x y n => exact .inr ⟨x, y, n, rfl⟩
  all_goals exact absurd rfl h

/-- Settles O27: each clause is a field of the instruction's frame, and the stack's entries are 2NNN's alone. -/
theorem specialStateChangedOnlyByItsInstructions : Obligations.SpecialStateChangedOnlyByItsInstructions := by
  intro i s t hx
  rcases exec_completes_or_faults hx with h | ⟨c, -, rfl⟩
  · have hf := h.frame
    exact ⟨fun hne => instr_of_touched_iReg (mt hf.iReg hne),
      fun hne => instr_of_touched_stack fun h => hne (hf.stack h).1,
      fun hne => h.stack.elim (absurd · hne) And.left,
      fun hne => instr_of_touched_dt (mt hf.dt hne),
      fun hne => instr_of_touched_st (mt hf.st hne),
      fun hne => instr_of_touched_display fun h => hne (hf.display h).1⟩
  · simp

/-! ## Reset and the host -/

theorem length_glyphTable : glyphTable.length = 80 := by decide

/-- Above the glyph table an unlisted address reads as 0 (R22). -/
theorem resetByte_of_ge {a : Nat} (h : 0x050 ≤ a) : resetByte a = 0 :=
  List.getD_eq_default _ _ (length_glyphTable.trans_le h)

theorem Mem.forget_nil (a : Nat) : Mem.forget [] a = [] := rfl

/-- Storing what an address reads as at reset lists no cell. -/
theorem Mem.writeBytes_reset (a : Nat) (bs : List Byte) (h : ∀ k < bs.length, bs.getD k 0 = resetByte (a + k)) :
    Mem.writeBytes [] a bs = [] := by
  induction bs generalizing a with
  | nil => rfl
  | cons b bs ih =>
    have hb : b = resetByte a := h 0 (Nat.succ_pos _)
    rw [Mem.writeBytes, Mem.write, if_pos hb, Mem.forget_nil]
    refine ih (a + 1) fun k hk => ?_
    rw [Nat.add_right_comm]
    exact h (k + 1) (Nat.succ_lt_succ hk)

theorem resetWith_glyphTable {glyphs : Vector Byte 80} (h : glyphs.toList = glyphTable) :
    resetWith glyphs = State.reset := by
  have hm : Mem.writeBytes [] 0 glyphTable = [] :=
    Mem.writeBytes_reset 0 glyphTable fun k _ => by rw [Nat.zero_add]; rfl
  have : State.reset.mem.writeBytes 0 glyphs.toList = State.reset.mem := h ▸ hm
  rw [resetWith, this]

/-- A table the host gives reads back from address 0 (R23). -/
theorem resetWith_read (glyphs : Vector Byte 80) (k : Fin 80) : (resetWith glyphs).mem.read k.val = glyphs[k.val] := by
  have hk : k.val < glyphs.toList.length := by simp
  have hread : (resetWith glyphs).mem.read k.val = _ := Mem.read_writeBytes _ _ _ _
  rw [hread, if_pos (by omega), Nat.sub_zero, List.getD_eq_getElem _ _ hk, Vector.getElem_toList]

theorem resetWith_read_of_ge (glyphs : Vector Byte 80) {a : Nat} (h : 0x050 ≤ a) :
    (resetWith glyphs).mem.read a = 0 := by
  have hread : (resetWith glyphs).mem.read a = State.reset.mem.read a :=
    Mem.read_writeBytes_outside _ _ _ _ (by simp; omega)
  rw [hread]
  exact resetByte_of_ge h

/-- Settles O56: the registers by evaluation, the memory by what it reads as. -/
theorem resetValues : Obligations.ResetValues := by
  refine ⟨by decide, rfl, rfl, rfl, by decide, rfl, rfl, Framebuffer.pixel_clear, by decide, rfl, rfl, rfl, rfl, rfl, rfl,
    length_glyphTable, fun _ _ => rfl, fun _ => resetByte_of_ge, fun _ => resetWith_glyphTable,
    fun glyphs => ⟨resetWith_read glyphs, fun _ => resetWith_read_of_ge glyphs, rfl⟩⟩

/-- Settles O59: one key of `Session.act` is written, at its own index, and only within range. -/
theorem keySetAndRedrawClear : Obligations.KeySetAndRedrawClear := by
  intro u
  refine ⟨fun k p => ?_, fun code p hc => ?_, rfl⟩
  · refine ⟨{ u with core := setKey u.core k p }, ?_, ?_, fun j hj => ?_, rfl⟩
    · rw [Session.act, dif_pos k.isLt]
    · simp
    · exact Vector.getElem_set_ne k.isLt j.isLt (fun h => hj (Fin.ext h.symm))
  · rw [Session.act, dif_neg (by omega)]

end Sys2Proof.Machine
end

section
/-! PROOFS. The memory and the bytes in it (spec 20_memory.md, 30_encoding.md): the bytes of every instruction decode
to it, the memory's canonical form, what an instruction stores and where, what a later fetch reads, and `Load`. -/

namespace Sys2Proof

/-! ## No word selects two rows of R48, so the row found is the only one -/

/-- The two rows' patterns differ in a bit that both masks test. -/
abbrev OpcodeRow.Apart (r q : OpcodeRow) : Prop := r.pattern &&& q.mask ≠ q.pattern &&& r.mask

theorem OpcodeRow.selects_iff {r : OpcodeRow} {w : Word} : r.selects w = true ↔ w &&& r.mask = r.pattern := beq_iff_eq

theorem OpcodeRow.Apart.not_selects {r q : OpcodeRow} (h : r.Apart q) {w : Word} (hq : q.selects w = true) :
    ¬ r.selects w = true := fun hr => h <| by
  rw [← selects_iff.1 hr, ← selects_iff.1 hq, BitVec.and_assoc, BitVec.and_assoc, BitVec.and_comm r.mask]

theorem opcodeRows_apart : opcodeRows.Pairwise OpcodeRow.Apart := by decide

/-- Among rows that are apart, the search finds the row that selects the word. -/
theorem find?_selects {rows : List OpcodeRow} (hp : rows.Pairwise OpcodeRow.Apart) {r : OpcodeRow} (hr : r ∈ rows)
    {w : Word} (hw : r.selects w = true) : rows.find? (fun q => q.selects w) = some r := by
  induction rows with
  | nil => cases hr
  | cons q rows ih =>
    obtain ⟨hq, hrows⟩ := List.pairwise_cons.1 hp
    rcases List.mem_cons.1 hr with rfl | hr
    · exact List.find?_cons_of_pos hw
    · refine (List.find?_cons_of_neg ?_).trans (ih hrows hr)
      exact (hq r hr).not_selects hw

/-- A word decodes to what a row that selects it builds. -/
theorem decodeWord_of_selects {r : OpcodeRow} (hr : r ∈ opcodeRows) {w : Word} (hw : r.selects w = true) :
    decodeWord w = .ok (r.build w) := by
  rw [decodeWord, find?_selects opcodeRows_apart hr hw]

/-! ## The row of an instruction reads the instruction from its word -/

/-- The row selects the instruction's word and reads the instruction from it. -/
def OpcodeRow.Reads (r : OpcodeRow) (i : Instr) : Prop := r.selects (encode i) = true ∧ r.build (encode i) = i

theorem reads_of_NNN {p : Word} (hp : p &&& 0x0FFF = 0) {f : Addr12 → Instr}
    (hf : ∀ nnn, encode (f nnn) = formatNNN (opField p) nnn) (nnn : Addr12) :
    OpcodeRow.Reads ⟨0xF000, p, fun w => f (nnnField w)⟩ (f nnn) :=
  ⟨OpcodeRow.selects_iff.2 ((mask_F000 hp).2 (by simp [hf])), by simp [hf]⟩

theorem reads_of_XNN {p : Word} (hp : p &&& 0x0FFF = 0) {f : Reg → Byte → Instr}
    (hf : ∀ x nn, encode (f x nn) = formatXNN (opField p) x nn) (x : Reg) (nn : Byte) :
    OpcodeRow.Reads ⟨0xF000, p, fun w => f (xField w) (nnField w)⟩ (f x nn) :=
  ⟨OpcodeRow.selects_iff.2 ((mask_F000 hp).2 (by simp [hf])), by simp [hf]⟩

theorem reads_of_XYN {p : Word} (hp : p &&& 0x0FFF = 0) {f : Reg → Reg → Nibble → Instr}
    (hf : ∀ x y n, encode (f x y n) = formatXYN (opField p) x y n) (x y : Reg) (n : Nibble) :
    OpcodeRow.Reads ⟨0xF000, p, fun w => f (xField w) (yField w) (nField w)⟩ (f x y n) :=
  ⟨OpcodeRow.selects_iff.2 ((mask_F000 hp).2 (by simp [hf])), by simp [hf]⟩

theorem reads_of_XY {p : Word} (hp : p &&& 0x0FF0 = 0) {f : Reg → Reg → Instr}
    (hf : ∀ x y, encode (f x y) = formatXYN (opField p) x y (nField p)) (x y : Reg) :
    OpcodeRow.Reads ⟨0xF00F, p, fun w => f (xField w) (yField w)⟩ (f x y) :=
  ⟨OpcodeRow.selects_iff.2 ((mask_F00F hp).2 (by simp [hf])), by simp [hf]⟩

theorem reads_of_X {p : Word} (hp : p &&& 0x0F00 = 0) {f : Reg → Instr}
    (hf : ∀ x, encode (f x) = formatX (opField p) x (nnField p)) (x : Reg) :
    OpcodeRow.Reads ⟨0xF0FF, p, fun w => f (xField w)⟩ (f x) :=
  ⟨OpcodeRow.selects_iff.2 ((mask_F0FF hp).2 (by simp [hf])), by simp [hf]⟩

theorem reads_of_word (i : Instr) : OpcodeRow.Reads ⟨0xFFFF, encode i, fun _ => i⟩ i :=
  ⟨OpcodeRow.selects_iff.2 ((mask_FFFF _ _).2 rfl), rfl⟩

/-- The constructors stand in the order of R48's rows, so an instruction's row is at its constructor's place. -/
theorem row_reads (i : Instr) : ∃ r, opcodeRows[i.ctorIdx]? = some r ∧ r.Reads i := by
  cases i
  case cls | ret => exact ⟨_, rfl, reads_of_word _⟩
  case jp nnn | call nnn | ldINnn nnn | jpV0Nnn nnn => exact ⟨_, rfl, reads_of_NNN rfl (fun _ => rfl) nnn⟩
  case seVxNn x nn | sneVxNn x nn | ldVxNn x nn | addVxNn x nn | rnd x nn =>
    exact ⟨_, rfl, reads_of_XNN rfl (fun _ _ => rfl) x nn⟩
  case drw x y n => exact ⟨_, rfl, reads_of_XYN rfl (fun _ _ _ => rfl) x y n⟩
  case seVxVy x y | ldVxVy x y | orVxVy x y | andVxVy x y | xorVxVy x y | addVxVy x y | sub x y | shr x y |
      subn x y | shl x y | sneVxVy x y =>
    exact ⟨_, rfl, reads_of_XY rfl (fun _ _ => rfl) x y⟩
  case skp x | sknp x | ldVxDt x | ldVxK x | ldDtVx x | ldStVx x | addIVx x | ldFVx x | ldBVx x | ldMemVx x |
      ldVxMem x =>
    exact ⟨_, rfl, reads_of_X rfl (fun _ => rfl) x⟩

/-- The word of every instruction decodes to it. -/
@[simp] theorem decodeWord_encode (i : Instr) : decodeWord (encode i) = .ok i := by
  obtain ⟨r, hr, hsel, hbuild⟩ := row_reads i
  rw [decodeWord_of_selects (List.mem_of_getElem? hr) hsel, hbuild]

/-- The bytes of a word decode as the word does, and leave what follows them (R34, R45). -/
theorem decode_bytesOfWord_append (w : Word) (rest : List Byte) :
    decode (bytesOfWord w ++ rest) = (decodeWord w).map (fun i => (i, rest)) := by
  rw [bytesOfWord, List.cons_append, List.cons_append, List.nil_append, decode, wordOfBytes_bytesOfWord]

/-- Settles O1: the row at an instruction's place reads it from its word, and no other row selects that word. -/
theorem decodeOfEncode : Obligations.DecodeOfEncode := by
  intro i rest
  rw [encodeBytes, decode_bytesOfWord_append, decodeWord_encode]
  rfl

end Sys2Proof

namespace Sys2Proof.Machine

/-! ## The canonical form -/

/-- Settles O17: only stores of bytes that fit change the memory, and such stores keep the canonical form. -/
theorem stepKeepsMemoryCanonical : Obligations.StepKeepsMemoryCanonical :=
  fun _ _ => step_keeps_memCanonical

/-! ## The bytes an instruction stores -/

/-- The range that an instruction stores to is empty unless it is FX33 or FX55 (R89, R90). -/
theorem instr_of_touched_stored {i : Instr} {s : State} {a : Nat}
    (h : (touched s i).stored.1 ≤ a ∧ a < (touched s i).stored.1 + (touched s i).stored.2) :
    ∃ x : Reg, (i = .ldBVx x ∧ s.iReg.toNat ≤ a ∧ a ≤ s.iReg.toNat + 2) ∨
      (i = .ldMemVx x ∧ s.iReg.toNat ≤ a ∧ a ≤ s.iReg.toNat + x.val) := by
  cases i
  case ldBVx x => exact ⟨x, .inl ⟨rfl, h.1, Nat.le_of_lt_succ h.2⟩⟩
  case ldMemVx x => exact ⟨x, .inr ⟨rfl, h.1, Nat.le_of_lt_succ h.2⟩⟩
  all_goals exact absurd h.2 (Nat.not_lt_zero a)

/-- The range that a completed instruction stores to lies in the address space (R30, R33). -/
theorem Completes.stored_fits {i : Instr} {s t : State} (h : Completes s t i) :
    (touched s i).stored.1 + (touched s i).stored.2 ≤ 4096 := by
  cases i
  case ldBVx x => exact h.1
  case ldMemVx x => exact h.1
  all_goals exact Nat.zero_le 4096

/-- Settles O26: a changed byte lies in the range the instruction's frame names, and that range fits in memory. -/
theorem memoryChangedOnlyByStores : Obligations.MemoryChangedOnlyByStores := by
  intro i s t a hx hne
  rcases exec_completes_or_faults hx with h | ⟨c, -, rfl⟩
  · have hstored := of_not_not (mt (h.frame.memory a) hne)
    exact ⟨Nat.le_of_lt_succ (hstored.2.trans_le h.stored_fits), instr_of_touched_stored hstored⟩
  · exact absurd rfl hne

/-! ## What a fetch reads after a store -/

/-- A step that does not fault leaves a state its instruction completes in, after the timer phase. -/
theorem completes_of_step {s t : State} {i : Instr} (hs : s.run = .running) (hf : s.canFetch)
    (hd : decodeWord s.wordAtPc = .ok i) (h : step s = .next t) (ht : t.run = .running) :
    ∃ u, Completes s u i ∧ t = timerPhase u := by
  rw [step_instr hs hf hd] at h
  cases hx : exec i s with
  | fault r => cases r
  | refused r => rw [hx] at h; cases h
  | next u =>
    rw [hx] at h
    cases h
    cases hu : u.run with
    | running => exact ⟨u, completes_of_running hx hu, finishStep_running hu⟩
    | faulted => rw [finishStep_faulted hu, hu] at ht; cases ht

/-- FX33 stores the decimal digits of `V[X]` at `I` (R89), FX55 the registers up to `V[X]` (R90). -/
abbrev Stores (s : State) (i : Instr) (bytes : List Byte) : Prop :=
  ∃ x, (i = .ldBVx x ∧ bytes = decimalDigits (s.reg x)) ∨ (i = .ldMemVx x ∧ bytes = regsUpTo s x)

theorem Completes.mem_of_stores {i : Instr} {s t : State} {bytes : List Byte} (h : Completes s t i)
    (hst : Stores s i bytes) : t.mem = s.mem.writeBytes s.iReg.toNat bytes := by
  obtain ⟨x, ⟨rfl, rfl⟩ | ⟨rfl, rfl⟩⟩ := hst
  · obtain ⟨-, rfl⟩ := h; rfl
  · obtain ⟨-, rfl⟩ := h; rfl

/-- Settles O47: the stored bytes are in the memory the step leaves, and a fetch reads nothing but the memory. -/
theorem storeIsSeenByTheNextFetch : Obligations.StoreIsSeenByTheNextFetch := by
  intro s t u i bytes hs hf hd hst hstep ht hu huf
  obtain ⟨v, hv, rfl⟩ := completes_of_step hs hf hd hstep ht
  have hread (a : Nat) : u.mem.read a = byteAfterStore s.mem s.iReg.toNat bytes a := by
    rw [hu, timerPhase_mem, hv.mem_of_stores hst, Mem.read_writeBytes_eq_byteAfterStore]
  rw [fetch_eq, if_pos huf, State.wordAtPc, hread, hread]

/-! ## `Load` -/

theorem mayLoad_iff {u : Session} {bytes : List Byte} :
    u.mayLoad bytes = true ↔
      u.core.run = .running ∧ u.stepped = false ∧ u.loaded = false ∧ bytes.length ≤ 3584 := by
  simp [Session.mayLoad, and_assoc]

theorem act_load_ok {u : Session} {bytes : List Byte} (h : u.mayLoad bytes = true) :
    u.act (.load bytes) = .next { u with core := loadProgram u.core bytes, loaded := true } := by
  rw [Session.act, if_pos h]

theorem act_load_refused {u : Session} {bytes : List Byte} (h : ¬ u.mayLoad bytes = true) :
    u.act (.load bytes) = .refused .loadContract := by
  rw [Session.act, if_neg h]

/-- A program loaded reads back from 0x200 up (R42). -/
theorem loadProgram_read (s : State) (bytes : List Byte) {k : Nat} (hk : k < bytes.length) :
    (loadProgram s bytes).mem.read (0x200 + k) = bytes.getD k 0 := by
  rw [loadProgram_mem, Mem.read_writeBytes, if_pos ⟨Nat.le_add_right _ k, Nat.add_lt_add_left hk _⟩,
    Nat.add_sub_cancel_left]

/-- Settles O58: a `Load` within its contract is one store at 0x200, and each way to break the contract is refused. -/
theorem loadCopiesTheProgram : Obligations.LoadCopiesTheProgram := by
  intro u bytes
  constructor
  · intro hrun hstep hload hlen
    exact ⟨_, act_load_ok (mayLoad_iff.2 ⟨hrun, hstep, hload, hlen⟩), rfl, hstep,
      fun _ => loadProgram_read u.core bytes, fun a => Mem.read_writeBytes_outside u.core.mem 0x200 a bytes, rfl⟩
  · intro h
    refine act_load_refused fun hmay => ?_
    obtain ⟨hrun, hstep, hload, hlen⟩ := mayLoad_iff.1 hmay
    rcases h with h | h | h | h
    · rw [hrun] at h; cases h
    · rw [hstep] at h; cases h
    · rw [hload] at h; cases h
    · exact absurd hlen (Nat.not_le_of_lt h)

end Sys2Proof.Machine
end

section
/-! PROOFS. The encoding (spec 30_encoding.md): both directions between words and instructions, R48's table row by row,
R50's list of the unrecognized words, R52's assembler, and what a step makes of an unrecognized word (R49). -/

namespace Sys2Proof

/-! ## Words that decode -/

/-- Settles O2: each row of R48 builds an instruction that encodes to the word it was built from. -/
theorem encodeOfDecodedWord : Obligations.EncodeOfDecodedWord :=
  fun _ _ => encode_of_decodeWord

/-- Each of the given rows decodes the word where the word matches it. -/
abbrev RowsDecode (rows : List OpcodeRow) (w : Word) : Prop :=
  rows.Forall fun r => w &&& r.mask = r.pattern → decodeWord w = .ok (r.build w)

theorem rowsDecode_opcodeRows (w : Word) : RowsDecode opcodeRows w :=
  List.forall_iff_forall_mem.2 fun _ hr hw => decodeWord_of_selects hr (OpcodeRow.selects_iff.2 hw)

/-- Settles O3: no two rows of R48 select one word, so the row that a word matches decodes it. -/
theorem opcodeMap : Obligations.OpcodeMap := by
  intro w
  obtain ⟨hcls, hret, hrows⟩ := rowsDecode_opcodeRows w
  exact ⟨fun h => hcls ((mask_FFFF w _).2 h), fun h => hret ((mask_FFFF w _).2 h), hrows⟩

/-- Settles O6: each sample word is the word its instruction encodes to. -/
theorem sampleWordsDecode : Obligations.SampleWordsDecode :=
  ⟨decodeWord_encode .cls, decodeWord_encode .ret, decodeWord_encode (.jp 0xABC), decodeWord_encode (.sneVxNn 0xA 0x7F),
    decodeWord_encode (.shr 0xA 0xB), decodeWord_encode (.shl 0xF 0xF), decodeWord_encode (.drw 1 2 5),
    decodeWord_encode (.skp 2), decodeWord_encode (.ldVxK 0), decodeWord_encode (.ldVxMem 0xF),
    decodeWord_encode (.ldVxMem 0), decodeWord_encode (.skp 0), decodeWord_encode (.drw 0 0 0),
    decodeWord_encode (.jpV0Nnn 0), decodeWord_encode (.seVxVy 0xA 0xB), decodeWord_encode (.sneVxVy 0xA 0xB)⟩

/-! ## Words that do not decode: R50's list names exactly the words no instruction encodes to -/

theorem formatNNN_of_opField {w : Word} {op : Nibble} (ho : opField w = op) : formatNNN op (nnnField w) = w :=
  ho ▸ formatNNN_fields w

theorem formatXNN_of_opField {w : Word} {op : Nibble} (ho : opField w = op) :
    formatXNN op (xField w) (nnField w) = w :=
  ho ▸ formatXNN_fields w

theorem formatXYN_of_opField_nField {w : Word} {op n : Nibble} (ho : opField w = op) (hn : nField w = n) :
    formatXYN op (xField w) (yField w) n = w :=
  ho ▸ hn ▸ formatXYN_fields w

theorem formatX_of_opField_nnField {w : Word} {op : Nibble} {ff : Byte} (ho : opField w = op) (hf : nnField w = ff) :
    formatX op (xField w) ff = w :=
  ho ▸ hf ▸ formatX_fields w

/-- The literal digits an instruction's format writes are in none of R50's families. -/
theorem not_unrecognizedByFamily_encode (i : Instr) : ¬ Machine.unrecognizedByFamily (encode i) := by
  cases i
  case cls | ret => unfold Machine.unrecognizedByFamily; decide
  all_goals simp [Machine.unrecognizedByFamily, encode]

theorem nibble_cases : ∀ a : Nibble, a = 0 ∨ a = 1 ∨ a = 2 ∨ a = 3 ∨ a = 4 ∨ a = 5 ∨ a = 6 ∨ a = 7 ∨ a = 8 ∨ a = 9 ∨
    a = 0xA ∨ a = 0xB ∨ a = 0xC ∨ a = 0xD ∨ a = 0xE ∨ a = 0xF := by decide

/-- The low digits that R50 leaves to family 8 (R48, rows 10 to 18). -/
theorem aluDigit_cases : ∀ n : Nibble, n ∉ ([0x8, 0x9, 0xA, 0xB, 0xC, 0xD, 0xF] : List Nibble) →
    n = 0 ∨ n = 1 ∨ n = 2 ∨ n = 3 ∨ n = 4 ∨ n = 5 ∨ n = 6 ∨ n = 7 ∨ n = 0xE := by decide

theorem exists_encode_of_alu {w : Word} (ho : opField w = 8)
    (hn : nField w ∉ ([0x8, 0x9, 0xA, 0xB, 0xC, 0xD, 0xF] : List Nibble)) : ∃ i, encode i = w := by
  rcases aluDigit_cases _ hn with hn | hn | hn | hn | hn | hn | hn | hn | hn <;>
    have hw := formatXYN_of_opField_nField ho hn
  exacts [⟨.ldVxVy _ _, hw⟩, ⟨.orVxVy _ _, hw⟩, ⟨.andVxVy _ _, hw⟩, ⟨.xorVxVy _ _, hw⟩, ⟨.addVxVy _ _, hw⟩,
    ⟨.sub _ _, hw⟩, ⟨.shr _ _, hw⟩, ⟨.subn _ _, hw⟩, ⟨.shl _ _, hw⟩]

theorem exists_encode_of_key {w : Word} (ho : opField w = 0xE) (hf : nnField w ∈ ([0x9E, 0xA1] : List Byte)) :
    ∃ i, encode i = w := by
  simp only [List.mem_cons, List.not_mem_nil, or_false] at hf
  rcases hf with hf | hf <;> have hw := formatX_of_opField_nnField ho hf
  exacts [⟨.skp _, hw⟩, ⟨.sknp _, hw⟩]

theorem exists_encode_of_misc {w : Word} (ho : opField w = 0xF)
    (hf : nnField w ∈ ([0x07, 0x0A, 0x15, 0x18, 0x1E, 0x29, 0x33, 0x55, 0x65] : List Byte)) : ∃ i, encode i = w := by
  simp only [List.mem_cons, List.not_mem_nil, or_false] at hf
  rcases hf with hf | hf | hf | hf | hf | hf | hf | hf | hf <;> have hw := formatX_of_opField_nnField ho hf
  exacts [⟨.ldVxDt _, hw⟩, ⟨.ldVxK _, hw⟩, ⟨.ldDtVx _, hw⟩, ⟨.ldStVx _, hw⟩, ⟨.addIVx _, hw⟩, ⟨.ldFVx _, hw⟩,
    ⟨.ldBVx _, hw⟩, ⟨.ldMemVx _, hw⟩, ⟨.ldVxMem _, hw⟩]

/-- A word that R50 does not list is the word of an instruction: family by family, the digits left are R48's. -/
theorem exists_encode_of_not_unrecognizedByFamily {w : Word} (h : ¬ Machine.unrecognizedByFamily w) :
    ∃ i, encode i = w := by
  simp only [Machine.unrecognizedByFamily, not_or, not_and, not_not] at h
  obtain ⟨h0, h5, h8, h9, hE, hF⟩ := h
  rcases nibble_cases (opField w) with ho | ho | ho | ho | ho | ho | ho | ho | ho | ho | ho | ho | ho | ho | ho | ho
  · by_cases hw : w = 0x00E0
    · exact ⟨.cls, hw.symm⟩
    · exact ⟨.ret, (h0 ho hw).symm⟩
  · exact ⟨.jp _, formatNNN_of_opField ho⟩
  · exact ⟨.call _, formatNNN_of_opField ho⟩
  · exact ⟨.seVxNn _ _, formatXNN_of_opField ho⟩
  · exact ⟨.sneVxNn _ _, formatXNN_of_opField ho⟩
  · exact ⟨.seVxVy _ _, formatXYN_of_opField_nField ho (h5 ho)⟩
  · exact ⟨.ldVxNn _ _, formatXNN_of_opField ho⟩
  · exact ⟨.addVxNn _ _, formatXNN_of_opField ho⟩
  · exact exists_encode_of_alu ho (h8 ho)
  · exact ⟨.sneVxVy _ _, formatXYN_of_opField_nField ho (h9 ho)⟩
  · exact ⟨.ldINnn _, formatNNN_of_opField ho⟩
  · exact ⟨.jpV0Nnn _, formatNNN_of_opField ho⟩
  · exact ⟨.rnd _ _, formatXNN_of_opField ho⟩
  · exact ⟨.drw _ _ _, formatXYN_of_opField_nField ho rfl⟩
  · exact exists_encode_of_key ho (hE ho)
  · exact exists_encode_of_misc ho (hF ho)

theorem decodeWord_unrecognized_iff {w : Word} :
    decodeWord w = .error (.unrecognized w) ↔ Machine.unrecognizedByFamily w := by
  constructor
  · intro h
    by_contra hw
    obtain ⟨i, rfl⟩ := exists_encode_of_not_unrecognizedByFamily hw
    rw [decodeWord_encode] at h
    cases h
  · intro h
    cases hd : decodeWord w with
    | ok i => exact absurd (encode_of_decodeWord hd ▸ h) (not_unrecognizedByFamily_encode i)
    | error e => rw [(decodeWord_error.1 hd).1]

/-- The words on which prose and table can be read to disagree are listed in families 0, 5 and 9 (R50). -/
theorem unrecognizedByFamily_of_ambiguousWord {w : Word} (h : ambiguousWord w = true) :
    Machine.unrecognizedByFamily w := by
  simp only [ambiguousWord, Bool.or_eq_true, Bool.and_eq_true, beq_iff_eq, bne_iff_ne] at h
  rcases h with ⟨⟨ho, hx⟩, -⟩ | ⟨ho | ho, hn⟩
  · exact .inl ⟨ho, fun hw => hx (by rw [hw]; decide), fun hw => hx (by rw [hw]; decide)⟩
  · exact .inr (.inl ⟨ho, hn⟩)
  · exact .inr (.inr (.inr (.inl ⟨ho, hn⟩)))

/-- Settles O4: a word R50 does not list is an instruction's, and an instruction's word is not listed. -/
theorem unrecognizedWordsByFamily : Obligations.UnrecognizedWordsByFamily := fun _ =>
  ⟨decodeWord_unrecognized_iff, fun _ he => (decodeWord_error.1 he).1,
    fun h => decodeWord_unrecognized_iff.2 (unrecognizedByFamily_of_ambiguousWord h)⟩

/-! ## The assembler -/

@[simp] theorem asmReg_val (x : Reg) : asmReg x.val = x := Fin.ext (Nat.mod_eq_of_lt x.isLt)

open Laws.WellFormedLine in
@[simp] theorem wf_toAsm (i : Instr) : i.toAsm.wf = true := by
  cases i
  exacts [cls, ret, jp _, call _, seVxNn _ _, sneVxNn _ _, seVxVy _ _, ldVxNn _ _, addVxNn _ _, ldVxVy _ _,
    orVxVy _ _, andVxVy _ _, xorVxVy _ _, addVxVy _ _, sub _ _, shr _ _, subn _ _, shl _ _, sneVxVy _ _, ldINnn _,
    jpV0Nnn _, rnd _ _, drw _ _ _, skp _, sknp _, ldVxDt _, ldVxK _, ldDtVx _, ldStVx _, addIVx _, ldFVx _, ldBVx _,
    ldMemVx _, ldVxMem _]

/-- The numbers of an instruction's line are its fields, so the line names the instruction back (R52). -/
theorem asmInstr_toAsm (i : Instr) : asmInstr i.toAsm = some i.withZeroY := by
  cases i <;> simp [asmInstr, Instr.toAsm, Instr.withZeroY]

/-- A well-formed line has the mnemonic and the operand shapes of a row. -/
theorem isSome_asmInstr_of_wf {l : AsmLine} (h : l.wf = true) : (asmInstr l).isSome = true := by
  obtain ⟨m, ops⟩ := l
  unfold AsmLine.wf at h
  split at h
  case h_35 => cases h
  all_goals
    rename_i hm hops
    cases hm; cases hops
    rfl

/-- Settles O5: an instruction's line is well formed and names its fields; only a line's `wf` decides on the rest. -/
theorem assemblerAgreesWithInstructions : Obligations.AssemblerAgreesWithInstructions := by
  constructor
  · intro i
    rw [assemble, if_pos (wf_toAsm i), asmInstr_toAsm]
  · intro l
    cases h : l.wf with
    | true => rw [assemble, if_pos h, isSome_asmInstr_of_wf h]
    | false => rw [assemble, if_neg (Bool.eq_false_iff.1 h), Option.isSome_none]

end Sys2Proof

namespace Sys2Proof.Machine

/-! ## The step over an unrecognized word -/

/-- A diagnostic is emitted exactly when the fetched word is rejected, and it names `pc` and that word (R116). -/
theorem diagEvent_eq_some {s : State} {d : Word × Word} :
    diagEvent s = some d ↔ s.run = .running ∧ s.canFetch ∧ (∃ e, decodeWord s.wordAtPc = .error e) ∧
      d = (s.pc, s.wordAtPc) := by
  unfold diagEvent
  rw [fetch_eq]
  cases hs : s.run with
  | faulted => simp
  | running =>
    by_cases hf : s.canFetch
    · cases hd : decodeWord s.wordAtPc <;> simp [hf, hd, eq_comm]
    · simp [hf]

/-- Settles O11: a word no row selects is rejected, and a rejected word is one no row selects. -/
theorem unrecognizedWordIsSteppedOver : Obligations.UnrecognizedWordIsSteppedOver := by
  constructor
  · intro s hs hf hrows
    have hd : decodeWord s.wordAtPc = .error (.unrecognized s.wordAtPc) := decodeWord_error.2 ⟨rfl, hrows⟩
    refine ⟨?_, diagEvent_eq_some.2 ⟨hs, hf, ⟨_, hd⟩, rfl⟩⟩
    rw [step_unrecognized hs hf hd, timerPhase_eq]
    rfl
  · intro s d h
    obtain ⟨hs, hf, ⟨e, he⟩, -⟩ := diagEvent_eq_some.1 h
    exact ⟨hs, hf, (decodeWord_error.1 he).2⟩

end Sys2Proof.Machine
end

section
/-! PROOFS. The step cycle (spec 40_step_cycle.md): the step in one equation, the two ways a step can fault, and the
machines whose every step is the same: a faulted one, and one at the conventional end. -/

namespace Sys2Proof.Machine

/-! ## One step -/

/-- The end of a step: a faulted state as it is, any other after the timer phase (R58). -/
theorem finishStep_eq (t : State) : finishStep t = if t.run = .faulted then t else timerPhase t := by
  cases ht : t.run with
  | running => rw [finishStep_running ht, if_neg RunState.noConfusion]
  | faulted => rw [finishStep_faulted ht, if_pos rfl]

/-- Settles O7: the decoded instruction's outcome, its next state finished by `finishStep`. -/
theorem stepRunsDecodedInstruction : Obligations.StepRunsDecodedInstruction := by
  intro s i hs hf hd
  rw [step_instr hs hf hd]
  cases exec i s with
  | next t => exact congrArg Host.Outcome.next (finishStep_eq t)
  | fault r => rfl
  | refused r => rfl

theorem step_completed {s u : State} {i : Instr} (hs : s.run = .running) (hf : s.canFetch)
    (hd : decodeWord s.wordAtPc = .ok i) (hx : exec i s = .next u) (hu : u.run = .running) :
    step s = .next u.ticked := by
  rw [step_instr hs hf hd, hx, mapNext, finishStep_running hu, timerPhase_eq]

/-- Settles O12: a completed instruction's state goes through the timer phase, which is one tick. -/
theorem timerPhaseRunsLast : Obligations.TimerPhaseRunsLast :=
  fun _ _ _ => step_completed

/-! ## The steps that fault -/

/-- A step that faults is a fetch out of bounds, or an instruction that records its own word (R56, R111). -/
theorem step_fault_cases {s t : State} (hs : s.run = .running) (h : step s = .next t) (ht : t.run = .faulted) :
    (¬ s.canFetch ∧ t = s.faultedWith .fetchBounds 0) ∨
    (s.canFetch ∧ (∃ i, decodeWord s.wordAtPc = .ok i) ∧
      ∃ c : FaultCause, c.OfInstr ∧ t = s.faultedWith c s.wordAtPc) := by
  rcases step_cases h with ⟨hs', -⟩ | ⟨-, hf, rfl⟩ | ⟨-, -, -, rfl⟩ | ⟨-, -, i, u, -, -, hu, rfl⟩ |
    ⟨-, hf, i, c, hd, hx, rfl⟩
  · cases hs.symm.trans hs'
  · exact .inl ⟨hf, rfl⟩
  · cases hs.symm.trans ht
  · cases hu.symm.trans ht
  · refine .inr ⟨hf, ⟨i, hd⟩, c, cause_of_exec_raiseFault hs hx, ?_⟩
    rw [encode_of_decodeWord hd]
    rfl

/-- Settles O10: with `pc` at 0xFFF or more no fetch is in bounds, and below it only an instruction can fault. -/
theorem fetchOutOfBoundsFaults : Obligations.FetchOutOfBoundsFaults := by
  intro s hs
  refine ⟨fun hpc => step_no_fetch hs (Nat.not_le_of_lt (Nat.lt_succ_of_le hpc)), fun hpc t h ht => ?_⟩
  rcases step_fault_cases hs h ht with ⟨hf, -⟩ | ⟨-, -, c, ⟨-, hc⟩, rfl⟩
  · exact absurd hpc hf
  · exact hc

/-- A state that does not fetch a rejected word emits no diagnostic (R116). -/
theorem diagEvent_eq_none {s : State}
    (h : s.run = .running → s.canFetch → ∃ i, decodeWord s.wordAtPc = .ok i) : diagEvent s = none := by
  refine Option.eq_none_iff_forall_ne_some.2 fun d hd => ?_
  obtain ⟨hs, hf, ⟨e, he⟩, -⟩ := diagEvent_eq_some.1 hd
  obtain ⟨i, hi⟩ := h hs hf
  cases hi.symm.trans he

/-- Settles O14: both ways to fault are a fault entry in the state before the step, and neither has a rejected word. -/
theorem faultingStepWritesOnlyTheRecord : Obligations.FaultingStepWritesOnlyTheRecord := by
  intro s t hs h ht
  rcases step_fault_cases hs h ht with ⟨hf, rfl⟩ | ⟨hf, hd, c, ⟨hc0, hc1⟩, rfl⟩
  · exact ⟨rfl, diagEvent_eq_none fun _ hf' => absurd hf' hf, nofun, fun _ => rfl, fun hne => absurd rfl hne⟩
  · exact ⟨rfl, diagEvent_eq_none fun _ _ => hd, hc0, fun hc => absurd hc hc1, fun _ => ⟨hf, rfl⟩⟩

/-! ## The machines whose every step is the same -/

theorem run_faulted {s : State} (h : s.run = .faulted) (k : Nat) : Sys2Proof.core.run k s = .next s := by
  induction k with
  | zero => rfl
  | succ k ih => exact (run_succ k (step_faulted h)).trans ih

/-- Settles O9: a faulted machine steps to itself, and a diagnostic needs a running one. -/
theorem faultedMachineIgnoresSteps : Obligations.FaultedMachineIgnoresSteps :=
  fun _ h => ⟨diagEvent_eq_none fun hs => RunState.noConfusion (hs.symm.trans h), run_faulted h⟩

/-- `s` after `k` timer phases and nothing else: each timer lowered by `k`, not below 0 (R105). -/
def State.tickedBy (s : State) (k : Nat) : State :=
  { s with dt := BitVec.ofNat 8 (s.dt.toNat - k), st := BitVec.ofNat 8 (s.st.toNat - k) }

@[simp] theorem State.tickedBy_zero (s : State) : s.tickedBy 0 = s := by
  simp [State.tickedBy]

/-- A timer lowered by one and then by `k` is lowered by `k + 1`. -/
theorem timer_lowered_succ (b : Byte) (k : Nat) :
    BitVec.ofNat 8 ((BitVec.ofNat 8 (b.toNat - 1)).toNat - k) = BitVec.ofNat 8 (b.toNat - (k + 1)) := by
  rw [← tick_eq, toNat_tick, Nat.sub_sub, Nat.add_comm]

theorem State.tickedBy_ticked (s : State) (k : Nat) : s.ticked.tickedBy k = s.tickedBy (k + 1) := by
  simp only [State.tickedBy, State.ticked, timer_lowered_succ]

/-- A machine that the timer phase leaves in a condition `P`, in which a step is just that phase, only counts down. -/
theorem run_of_step_ticked {P : State → Prop} (hstep : ∀ s, P s → step s = .next s.ticked)
    (hkeep : ∀ s, P s → P s.ticked) (k : Nat) {s : State} (hs : P s) :
    Sys2Proof.core.run k s = .next (s.tickedBy k) := by
  induction k generalizing s with
  | zero => rw [State.tickedBy_zero]; rfl
  | succ k ih => rw [run_succ k (hstep s hs), ih (hkeep s hs), State.tickedBy_ticked]

/-- At the conventional end the jump leaves `pc` where it is, so the step is the timer phase alone (R62, R65). -/
theorem step_atEnd {s : State} (h : s.atEnd) : step s = .next s.ticked := by
  obtain ⟨hs, hf, nnn, hd, hpc⟩ := h
  have hx : exec (.jp nnn) s = .next s := congrArg (fun a => Host.Outcome.next (s.jumpTo a)) hpc
  exact step_completed hs hf hd hx hs

/-- Settles O60: the conventional end does not read the timers, so it is kept while they count down. -/
theorem conventionalEndIsStable : Obligations.ConventionalEndIsStable :=
  fun _ h k => run_of_step_ticked (P := State.atEnd) (fun _ => step_atEnd) (fun _ h => h) k h

end Sys2Proof.Machine
end

section
/-! PROOFS. Control transfer (spec 41_control_flow.md): the result of every condition an instruction completes on, the
effects of calls, returns, jumps and skips, and the faults that instructions take in the state before them. -/

namespace Sys2Proof.Machine

/-! ## The shared operations on their own conditions -/

theorem pushReturn_of_lt {s : State} (h : s.sp.val < 16) (a : Word) :
    pushReturn s a = .ok { s with stack := s.stack.set s.sp.val a, sp := ⟨s.sp.val + 1, Nat.succ_lt_succ h⟩ } :=
  dif_pos h

theorem pushReturn_overflow {s : State} (h : s.sp.val = 16) (a : Word) : pushReturn s a = .error .stackOverflow :=
  dif_neg (by omega)

theorem popReturn_of_ne {s : State} (h : s.sp.val ≠ 0) :
    popReturn s = .ok ({ s with sp := ⟨s.sp.val - 1, by omega⟩ }, s.stack[s.sp.val - 1]) :=
  dif_neg h

theorem popReturn_underflow {s : State} (h : s.sp.val = 0) : popReturn s = .error .stackUnderflow :=
  dif_pos h

/-- One set bit outside the framebuffer is enough for the fault (R96). -/
theorem blit_error {x0 y0 px py : Nat} {bs : List Byte} (fb : Framebuffer) (hhit : spriteHits x0 y0 bs px py)
    (hout : px > 63 ∨ py > 31) : blit fb x0 y0 bs = .error .fbRange := by
  rcases blit_cases fb x0 y0 bs with ⟨-, hin⟩ | ⟨hb, -⟩
  · have := hin px py hhit
    omega
  · exact hb

/-! ## An instruction completes where its condition holds -/

/-- The converse of `exec_completes_or_faults`: a state an instruction can complete in is the one it answers. -/
theorem Completes.exec_eq {i : Instr} {s t : State} (h : Completes s t i) : exec i s = .next t := by
  cases i
  case ret => obtain ⟨hsp, rfl⟩ := h; rw [exec, execRet, popReturn_of_ne hsp]; rfl
  case call nnn => obtain ⟨hsp, rfl⟩ := h; rw [exec, execCall, pushReturn_of_lt hsp]; rfl
  case skp x => obtain ⟨hk, rfl⟩ := h; rw [exec, execSkp, keyDown_ok hk]; rfl
  case sknp x => obtain ⟨hk, rfl⟩ := h; rw [exec, execSknp, keyDown_ok hk]; rfl
  case drw x y n =>
    obtain ⟨p, hfit, hp, rfl⟩ := h
    rw [exec, execDrw, memRead_ok s hfit, Except.bind, hp]
    rfl
  case ldVxK x =>
    rcases h with ⟨hk, rfl⟩ | ⟨k, hk, rfl⟩ <;> rw [exec, execLdVxK, hk]
  case ldBVx x => obtain ⟨hfit, rfl⟩ := h; rw [exec, execLdBVx, memWrite_ok s (.inr hfit)]; rfl
  case ldMemVx x =>
    obtain ⟨hfit, rfl⟩ := h
    rw [exec, execLdMemVx, memWrite_ok s (.inr (by rwa [length_regsUpTo]))]
    rfl
  case ldVxMem x => obtain ⟨hfit, rfl⟩ := h; rw [exec, execLdVxMem, memRead_ok s (.inr hfit)]; rfl
  all_goals exact h

/-! ## Calls and returns -/

/-- Settles O29: 00EE completes with an entry in use, and its frame names the stack alone. -/
theorem returnPops : Obligations.ReturnPops := by
  intro s h
  have hc : Completes s _ .ret := ⟨Nat.ne_of_gt h, rfl⟩
  exact ⟨_, hc.exec_eq, rfl, rfl, rfl, hc.frame⟩

/-- Settles O30: 2NNN completes with room on the stack, and only the entry at the old `SP` is written. -/
theorem callPushes : Obligations.CallPushes := by
  intro s nnn h
  have hc : Completes s _ (.call nnn) := ⟨h, rfl⟩
  exact ⟨_, hc.exec_eq, toNat_zext12 nnn, rfl, Vector.getElem_set_self h,
    fun k hk => Vector.getElem_set_ne h k.isLt hk.symm, hc.frame⟩

/-- Settles O31: the entry below the stack pointer that 2NNN leaves is the one it pushed, and 00EE pops that one. -/
theorem callThenReturn : Obligations.CallThenReturn := by
  intro s t u nnn h hx husp hustack
  obtain ⟨t', hx', -, hsp, hpushed, -⟩ := callPushes s nnn h
  cases hx.symm.trans hx'
  have hu : u.sp.val = s.sp.val + 1 := (congrArg Fin.val husp).trans hsp
  have htop : u.sp.val - 1 = s.sp.val := by rw [hu, Nat.add_sub_cancel]
  obtain ⟨v, hv, hpc, hvsp, -⟩ := returnPops u (hu ▸ Nat.succ_pos _)
  refine ⟨v, hv, ?_, Fin.ext (hvsp.trans htop)⟩
  simp only [hpc, htop, hustack, hpushed]

/-! ## Jumps and skips -/

/-- Settles O32: both jump, to targets whose zero extensions and sum are exact. -/
theorem jumpsSetProgramCounter : Obligations.JumpsSetProgramCounter := fun s nnn =>
  ⟨⟨_, rfl, toNat_zext12 nnn, frame_jumpTo s _⟩, _, rfl, toNat_offsetTarget s nnn, frame_jumpTo s _⟩

theorem skipIf_pc_of_iff (s : State) {c : Bool} {P : Prop} [Decidable P] (h : c = true ↔ P) :
    (s.skipIf c).pc = if P then s.pc + 4 else s.pc + 2 := by
  rw [State.skipIf_pc, if_congr h rfl rfl]
  exact apply_ite (s.pc + ·) P 4 2

/-- A skip that tests `P` moves `pc` by 4 where `P` holds and by 2 where not, and changes nothing else (R63). -/
theorem exec_skip {i : Instr} {s : State} {c : Bool} {P : Prop} [Decidable P] (hx : exec i s = .next (s.skipIf c))
    (h : c = true ↔ P) :
    ∃ t, exec i s = .next t ∧ t.pc = (if P then s.pc + 4 else s.pc + 2) ∧ Frame {} s t :=
  ⟨_, hx, skipIf_pc_of_iff s h, frame_skipIf s c⟩

/-- Settles O33: the words are the instructions' own, and each instruction is a skip on its comparison. -/
theorem skipsOnEquality : Obligations.SkipsOnEquality := fun _ x y nn =>
  ⟨⟨decodeWord_encode (.seVxNn x nn), decodeWord_encode (.sneVxNn x nn), decodeWord_encode (.seVxVy x y),
      decodeWord_encode (.sneVxVy x y)⟩,
    exec_skip rfl beq_iff_eq, exec_skip rfl bne_iff_ne, exec_skip rfl beq_iff_eq, exec_skip rfl bne_iff_ne⟩

/-! ## Instructions that fault -/

/-- An instruction that maps the answer of a shared operation takes that operation's fault (R61, R111). -/
theorem exec_fault_of_map {α : Type} {i : Instr} {s : State} {e : Except FaultCause α} {f : α → State} {c : FaultCause}
    (hx : exec i s = complete i s (e.map f)) (he : e = .error c) : exec i s = .next (s.faultedWith c (encode i)) := by
  rw [hx, he]; rfl

/-- The sprite's bytes are read before anything is blitted, so their fault comes first (R93, R113). -/
theorem exec_drw_dataBounds {s : State} (x y : Reg) {n : Nibble} (hn : n.toNat > 0)
    (hout : s.iReg.toNat + n.toNat - 1 > 0xFFF) :
    exec (.drw x y n) s = .next (s.faultedWith .dataBounds (encode (.drw x y n))) := by
  have hm : memRead s (baseAddr s) n.toNat = .error .dataBounds :=
    memRead_error s ⟨Nat.ne_of_gt hn, by rw [baseAddr]; omega⟩
  rw [exec, execDrw, hm]
  rfl

/-- The sprite's bytes are all in memory, so the blit is reached; it is the blit that faults (R113). -/
theorem exec_drw_fbRange {s : State} {x y : Reg} {n : Nibble} {px py : Nat} (hfit : s.iReg.toNat + n.toNat ≤ 0x1000)
    (hhit : spriteHits (s.reg x).toNat (s.reg y).toNat (s.mem.readBytes s.iReg.toNat n.toNat) px py)
    (hout : px > 63 ∨ py > 31) : exec (.drw x y n) s = .next (s.faultedWith .fbRange (encode (.drw x y n))) := by
  have hm : memRead s (baseAddr s) n.toNat = .ok _ := memRead_ok s (.inr hfit)
  exact exec_fault_of_map (by rw [exec, execDrw, hm]; rfl) (blit_error s.fb hhit hout)

/-- Settles O16: each shared operation fails on its instruction's condition; DXYN reads its bytes before it blits. -/
theorem instructionsTakeTheirFaults : Obligations.InstructionsTakeTheirFaults := by
  refine ⟨fun s h => ?_, fun s nnn h => ?_, fun s x h => ?_, fun s x h => ⟨?_, ?_⟩, fun s x h => ⟨?_, ?_⟩,
    fun s x y n hn h => exec_drw_dataBounds x y hn h, fun s x y n px py hfit hhit h => exec_drw_fbRange hfit hhit h⟩
  · exact exec_fault_of_map rfl (popReturn_underflow h)
  · exact exec_fault_of_map rfl (pushReturn_overflow h _)
  · exact exec_fault_of_map rfl (memWrite_error s ⟨by simp, by rw [length_decimalDigits, baseAddr]; omega⟩)
  · exact exec_fault_of_map rfl (memWrite_error s ⟨by simp, by rw [length_regsUpTo, baseAddr]; omega⟩)
  · exact exec_fault_of_map rfl (memRead_error s ⟨Nat.succ_ne_zero _, by rw [baseAddr]; omega⟩)
  · exact exec_fault_of_map rfl (keyDown_error h)
  · exact exec_fault_of_map rfl (keyDown_error h)

end Sys2Proof.Machine
end

section
/-! PROOFS. The register loads and the ALU (spec 42_alu.md): what the two shared writes leave in a register, the flags
and results as numbers, and the obligations about 6XNN, 7XNN, 8XY0 to 8XYE and CXNN. -/

namespace Sys2Proof.Machine

/-! ## What a result's write leaves -/

@[simp] theorem State.reg_writeReg_self (s : State) (x : Reg) (b : Byte) : (s.writeReg x b).reg x = b :=
  (State.reg_writeReg s x x b).trans (if_pos rfl)

/-- The result of 8XY5, 8XY6, 8XY7 and 8XYE stands whatever `x` is: it is written after the flag (R72). -/
@[simp] theorem State.reg_writeFlagThenReg_self (s : State) (x : Reg) (b : Byte) (f : Bool) :
    (s.writeFlagThenReg x b f).reg x = b :=
  (State.reg_writeFlagThenReg s x x b f).trans (if_pos rfl)

theorem State.flag_writeFlagThenReg (s : State) {x : Reg} (hx : x ≠ 0xF) (b : Byte) (f : Bool) :
    (s.writeFlagThenReg x b f).reg 0xF = flagByte f := by
  rw [State.reg_writeFlagThenReg, if_neg hx.symm, if_pos flagReg_eq.symm]

/-! ## Flags and results as numbers -/

theorem toNat_flagByte (f : Bool) : (flagByte f).toNat = f.toNat := by
  cases f <;> rfl

theorem flagByte_addCarry (a b : Byte) : flagByte (addCarry a b) = if a.toNat + b.toNat > 255 then 1 else 0 := by
  simp [flagByte, addCarry]

theorem flagByte_subNoBorrow (a b : Byte) : flagByte (subNoBorrow a b) = if a.toNat < b.toNat then 0 else 1 := by
  simp [flagByte, subNoBorrow, ← ite_not (a.toNat < b.toNat)]

theorem toNat_flagByte_shrLostBit (a : Byte) : (flagByte (shrLostBit a)).toNat = a.toNat % 2 := by
  rw [toNat_flagByte, shrLostBit, BitVec.getLsbD, Nat.toNat_testBit, pow_zero, Nat.div_one]

theorem toNat_flagByte_shlLostBit (a : Byte) : (flagByte (shlLostBit a)).toNat = a.toNat / 128 := by
  rw [toNat_flagByte, shlLostBit, BitVec.getLsbD, Nat.toNat_testBit]
  have := a.isLt
  omega

theorem toNat_sub_eq_emod (a b : Byte) : ((a - b).toNat : Int) = (a.toNat - b.toNat : Int) % 256 := by
  rw [BitVec.toNat_sub]
  have := b.isLt
  omega

theorem toNat_shiftRight_one (a : Byte) : (a >>> 1).toNat = a.toNat / 2 := by
  rw [BitVec.toNat_ushiftRight, Nat.shiftRight_one]

theorem toNat_shiftLeft_one (a : Byte) : (a <<< 1).toNat = 2 * a.toNat % 256 := by
  rw [BitVec.toNat_shiftLeft, Nat.shiftLeft_eq, pow_one, Nat.mul_comm]

/-! ## The instructions that write `V[X]` alone -/

/-- The whole effect of an instruction that answers `writeReg`. -/
theorem exec_writeReg {i : Instr} {s : State} {x : Reg} {b : Byte} (h : exec i s = .next (s.writeReg x b)) :
    ∃ t, exec i s = .next t ∧ t.reg x = b ∧ t.pc = s.pc + 2 ∧ Frame { regs := [x] } s t :=
  ⟨_, h, s.reg_writeReg_self x b, rfl, frame_writeReg s x b⟩

/-- Settles O34: both write `V[X]` alone, and the words are their own. -/
theorem loadImmediateAndCopy : Obligations.LoadImmediateAndCopy := fun _ x y nn =>
  ⟨⟨decodeWord_encode (.ldVxNn x nn), decodeWord_encode (.ldVxVy x y)⟩, exec_writeReg rfl, exec_writeReg rfl⟩

/-- Settles O35: a sum of bytes is the sum modulo 256, and `V[X]` alone is written. -/
theorem addImmediateWraps : Obligations.AddImmediateWraps := by
  intro s x nn
  obtain ⟨t, hx, hreg, hpc, hframe⟩ := exec_writeReg (i := .addVxNn x nn) (s := s) rfl
  exact ⟨decodeWord_encode (.addVxNn x nn), t, hx, by rw [hreg]; exact BitVec.toNat_add _ _, hpc, hframe⟩

/-- An instruction that answers `writeReg` with a byte of which every bit is `f` of the two registers' bits. -/
theorem exec_bitwise {i : Instr} {s : State} {x y : Reg} {b : Byte} {f : Bool → Bool → Bool}
    (h : exec i s = .next (s.writeReg x b))
    (hb : ∀ k, b.getLsbD k = f ((s.reg x).getLsbD k) ((s.reg y).getLsbD k)) :
    ∃ t, exec i s = .next t ∧ t.pc = s.pc + 2 ∧ Frame { regs := [x] } s t ∧
      ∀ k < 8, (t.reg x).getLsbD k = f ((s.reg x).getLsbD k) ((s.reg y).getLsbD k) := by
  obtain ⟨t, hx, rfl, hpc, hframe⟩ := exec_writeReg h
  exact ⟨t, hx, hpc, hframe, fun k _ => hb k⟩

/-- Settles O36: each is its operation bit by bit, and writes `V[X]` alone. -/
theorem logicIsBitwise : Obligations.LogicIsBitwise := fun _ x y =>
  ⟨⟨decodeWord_encode (.orVxVy x y), decodeWord_encode (.andVxVy x y), decodeWord_encode (.xorVxVy x y)⟩,
    exec_bitwise (f := or) rfl fun _ => BitVec.getLsbD_or, exec_bitwise (f := and) rfl fun _ => BitVec.getLsbD_and,
    exec_bitwise (f := xor) rfl fun _ => BitVec.getLsbD_xor⟩

/-! ## The instructions that write the flag as well -/

/-- Settles O37: the carry is written last, so it stands also where `X = 0xF` (R72). -/
theorem addSetsCarry : Obligations.AddSetsCarry := by
  intro s x y
  have hc : Completes s _ (.addVxVy x y) := rfl
  refine ⟨decodeWord_encode (.addVxVy x y), _, hc.exec_eq, ?_, fun hx => ?_, rfl, hc.frame⟩
  · rw [State.reg_advance, flagReg_eq, State.reg_setReg_self, flagByte_addCarry]
  · rw [State.reg_advance, flagReg_eq, State.reg_setReg_of_ne _ _ hx, State.reg_setReg_self]
    exact BitVec.toNat_add _ _

/-- The whole effect of an instruction that answers `writeFlagThenReg`: the flag is lost where `X = 0xF` (R72). -/
theorem exec_writeFlagThenReg {i : Instr} {s : State} {x : Reg} {b : Byte} {f : Bool}
    (h : exec i s = .next (s.writeFlagThenReg x b f)) :
    ∃ t, exec i s = .next t ∧ t.reg x = b ∧ (x ≠ 0xF → t.reg 0xF = flagByte f) ∧ t.pc = s.pc + 2 ∧
      Frame { regs := [x, 0xF] } s t :=
  ⟨_, h, s.reg_writeFlagThenReg_self x b f, fun hx => s.flag_writeFlagThenReg hx b f, rfl,
    frame_writeFlagThenReg s x b f⟩

/-- An instruction that leaves `a - b` in `V[X]` and reports the borrow (R80, R82). -/
theorem exec_subtraction {i : Instr} {s : State} {x : Reg} {a b : Byte}
    (h : exec i s = .next (s.writeFlagThenReg x (a - b) (subNoBorrow a b))) :
    ∃ t, exec i s = .next t ∧ ((t.reg x).toNat : Int) = (a.toNat - b.toNat : Int) % 256 ∧
      (x ≠ 0xF → t.reg 0xF = (if a.toNat < b.toNat then 0 else 1)) ∧ t.pc = s.pc + 2 ∧
      Frame { regs := [x, 0xF] } s t := by
  obtain ⟨t, hx, hreg, hflag, hpc, hframe⟩ := exec_writeFlagThenReg h
  exact ⟨t, hx, hreg ▸ toNat_sub_eq_emod a b, fun hne => (hflag hne).trans (flagByte_subNoBorrow a b), hpc, hframe⟩

/-- Settles O38: 8XY7 is 8XY5 with the operands exchanged. -/
theorem subtractionsSetNoBorrow : Obligations.SubtractionsSetNoBorrow := fun _ _ _ =>
  ⟨exec_subtraction rfl, exec_subtraction rfl⟩

/-- Settles O39: neither shift reads `V[Y]`, and the lost bit is a remainder or a quotient of the old `V[X]`. -/
theorem shiftsReportTheLostBit : Obligations.ShiftsReportTheLostBit := by
  intro s x y
  constructor
  · obtain ⟨t, hx, hreg, hflag, hpc, hframe⟩ := exec_writeFlagThenReg (i := .shr x y) (s := s) rfl
    refine ⟨t, hx, hreg ▸ toNat_shiftRight_one _, fun hne => ?_, hpc, hframe⟩
    rw [hflag hne, toNat_flagByte_shrLostBit]
  · obtain ⟨t, hx, hreg, hflag, hpc, hframe⟩ := exec_writeFlagThenReg (i := .shl x y) (s := s) rfl
    refine ⟨t, hx, hreg ▸ toNat_shiftLeft_one _, fun hne => ?_, hpc, hframe⟩
    rw [hflag hne, toNat_flagByte_shlLostBit]

/-! ## The random byte -/

/-- Settles O40: a bit of an AND is a bit of its left operand, whatever the byte drawn is. -/
theorem randomIsMasked : Obligations.RandomIsMasked := by
  intro s x nn
  have hc : Completes s _ (.rnd x nn) := rfl
  have hreg := (drawRandom s).2.reg_writeReg_self x (nn &&& (drawRandom s).1)
  refine ⟨_, hc.exec_eq, hreg, fun k _ hk => ?_, rfl, rfl, hc.frame⟩
  rw [hreg, BitVec.getLsbD_and, Bool.and_eq_true] at hk
  exact hk.1

end Sys2Proof.Machine
end

section
/-! PROOFS. Address register and memory transfer (spec 43_index_memory.md): what a store leaves to be read, the digits
of a byte as numbers, and the obligations about ANNN, FX1E, FX29, FX33, FX55 and FX65. -/

namespace Sys2Proof.Machine

/-! ## The instructions that write `I` alone -/

/-- The whole effect of an instruction that answers `writeI`, the address written being the number `n`. -/
theorem exec_writeI {i : Instr} {s : State} {a : Word} {n : Nat} (h : exec i s = .next (s.writeI a))
    (ha : a.toNat = n) :
    ∃ t, exec i s = .next t ∧ t.iReg.toNat = n ∧ t.pc = s.pc + 2 ∧ Frame { iReg := true } s t :=
  ⟨_, h, ha, rfl, frame_writeI s a⟩

/-- Settles O41: both write `I` alone, and neither the zero extension nor the product wraps. -/
theorem loadAddressRegister : Obligations.LoadAddressRegister := fun s x nnn =>
  ⟨⟨decodeWord_encode (.ldINnn nnn), decodeWord_encode (.ldFVx x)⟩, exec_writeI rfl (toNat_zext12 nnn),
    exec_writeI rfl (toNat_glyphAddr (s.reg x))⟩

/-- Settles O42: a sum of words is the sum modulo 65536, and the byte's zero extension is exact. -/
theorem addToAddressRegisterWraps : Obligations.AddToAddressRegisterWraps := fun _ _ =>
  exec_writeI rfl (by rw [BitVec.toNat_add, toNat_zext8])

/-! ## The instructions that store at `I` -/

/-- Byte `k` of a store reads back at `k` above the store's address. -/
theorem Mem.read_writeBytes_add (m : Mem) (a : Nat) {bs : List Byte} {k : Nat} (hk : k < bs.length) :
    (m.writeBytes a bs).read (a + k) = bs.getD k 0 := by
  rw [Mem.read_writeBytes, if_pos ⟨Nat.le_add_right a k, Nat.add_lt_add_left hk a⟩, Nat.add_sub_cancel_left]

/-- Each decimal digit of a byte fits in a byte (R89). -/
theorem toNat_decimalDigits (b : Byte) :
    ((decimalDigits b).getD 0 0).toNat = b.toNat / 100 ∧ ((decimalDigits b).getD 1 0).toNat = b.toNat / 10 % 10 ∧
      ((decimalDigits b).getD 2 0).toNat = b.toNat % 10 := by
  have hb := b.isLt
  exact ⟨Nat.mod_eq_of_lt (by omega), Nat.mod_eq_of_lt (by omega), Nat.mod_eq_of_lt (by omega)⟩

/-- Settles O43: the three digits fit in memory, and each reads back as a number from its own place in the store. -/
theorem storeDecimalDigits : Obligations.StoreDecimalDigits := by
  intro s x hfit
  have hc : Completes s _ (.ldBVx x) := ⟨Nat.succ_le_succ hfit, rfl⟩
  have hread {k : Nat} (hk : k < 3) :
      (s.mem.writeBytes s.iReg.toNat (decimalDigits (s.reg x))).read (s.iReg.toNat + k) =
        (decimalDigits (s.reg x)).getD k 0 := Mem.read_writeBytes_add _ _ hk
  obtain ⟨hhundreds, htens, hones⟩ := toNat_decimalDigits (s.reg x)
  refine ⟨_, hc.exec_eq, ?_, ?_, ?_, rfl, hc.frame⟩
  · exact (congrArg BitVec.toNat (hread (k := 0) (by decide))).trans hhundreds
  · exact (congrArg BitVec.toNat (hread (by decide))).trans htens
  · exact (congrArg BitVec.toNat (hread (by decide))).trans hones

/-- Settles O44: the `X + 1` registers fit in memory, and the byte at `I + r` is the `r`-th of them. -/
theorem storeRegisters : Obligations.StoreRegisters := by
  intro s x hfit
  have hc : Completes s _ (.ldMemVx x) := ⟨Nat.succ_le_succ hfit, rfl⟩
  refine ⟨_, hc.exec_eq, fun r hr => ?_, rfl, hc.frame⟩
  have hlen : r.val < (regsUpTo s x).length := by rw [length_regsUpTo]; exact Nat.lt_succ_of_le hr
  exact (Mem.read_writeBytes_add s.mem s.iReg.toNat hlen).trans (getD_regsUpTo s x r hr)

/-! ## The instruction that loads from `I` -/

/-- Settles O45: the `X + 1` bytes are in memory, and register `r` takes the `r`-th of them. -/
theorem loadRegisters : Obligations.LoadRegisters := by
  intro s x hfit
  have hc : Completes s _ (.ldVxMem x) := ⟨Nat.succ_le_succ hfit, rfl⟩
  refine ⟨_, hc.exec_eq, fun r hr => ?_, by rw [loadRegs_frame]; rfl, hc.frame⟩
  have hlt : r.val < x.val + 1 := Nat.lt_succ_of_le hr
  rw [State.reg_advance, reg_loadRegs, Mem.length_readBytes, Nat.zero_add, if_pos ⟨Nat.zero_le _, hlt⟩, Nat.sub_zero,
    Mem.getD_readBytes _ _ _ _ hlt, baseAddr]

/-- Settles O46: FX55 leaves `I` (D13), so FX65 reads each register's byte where FX55 stored it. -/
theorem storeThenLoadRoundTrip : Obligations.StoreThenLoadRoundTrip := by
  intro s t u x hfit hx hI hmem
  obtain ⟨t', hx', hstored, -, hstore⟩ := storeRegisters s x hfit
  cases hx.symm.trans hx'
  have hbase : u.iReg = s.iReg := hI.trans (hstore.iReg rfl)
  obtain ⟨v, hv, hloaded, -, hload⟩ := loadRegisters u x (hbase ▸ hfit)
  refine ⟨v, hv, fun r hr => ?_, fun r hr => hload.regs r (mt mem_destRegs_ldVxMem.1 (Fin.not_le.2 hr))⟩
  calc v.reg r = u.mem.read (u.iReg.toNat + r.val) := hloaded r hr
    _ = t.mem.read (s.iReg.toNat + r.val) := by rw [hmem, hbase]
    _ = s.reg r := hstored r hr

end Sys2Proof.Machine
end

section
/-! PROOFS. The display (spec 44_display.md): what toggling a list of pixels leaves and reports, what DXYN's completion
tells of its sprite, and the obligations about 00E0, the blit and DXYN. -/

namespace Sys2Proof.Machine

/-! ## The clear -/

/-- Settles O48: the cleared framebuffer has every pixel 0, and the frame of 00E0 names the display alone. -/
theorem clearScreen : Obligations.ClearScreen := by
  intro s
  have hc : Completes s _ .cls := rfl
  exact ⟨decodeWord_cls, _, hc.exec_eq, fun px py _ _ => Framebuffer.pixel_clear px py, rfl, rfl, hc.frame⟩

/-! ## Toggling a list of distinct pixels -/

/-- Toggling a pixel inside the framebuffer leaves every other pixel alone. -/
theorem pixel_blitPixel (acc : Bool × Framebuffer) {p : Nat × Nat} (hp : p.1 < 64 ∧ p.2 < 32) (q : Nat × Nat) :
    (blitPixel acc p).2.pixel q.1 q.2 = if q = p then !acc.2.pixel q.1 q.2 else acc.2.pixel q.1 q.2 := by
  rw [blitPixel, Framebuffer.pixel_setPixel _ _ _ _ _ _ hp]
  by_cases h : q = p
  · rw [h, if_pos ⟨rfl, rfl⟩, if_pos rfl]
  · rw [if_neg (fun he => h (Prod.ext he.1 he.2)), if_neg h]

/-- A pixel listed once is toggled once, and a pixel not listed is left alone. -/
theorem pixel_foldl_blitPixel {ps : List (Nat × Nat)} (hnodup : ps.Nodup) (hin : ∀ p ∈ ps, p.1 < 64 ∧ p.2 < 32)
    (acc : Bool × Framebuffer) (q : Nat × Nat) :
    (ps.foldl blitPixel acc).2.pixel q.1 q.2 = if q ∈ ps then !acc.2.pixel q.1 q.2 else acc.2.pixel q.1 q.2 := by
  induction ps generalizing acc with
  | nil => simp
  | cons p ps ih =>
    obtain ⟨hp, hnodup⟩ := List.nodup_cons.1 hnodup
    obtain ⟨hpin, hin⟩ := List.forall_mem_cons.1 hin
    rw [List.foldl_cons, ih hnodup hin, pixel_blitPixel acc hpin]
    by_cases hq : q = p
    · simp [hq, hp]
    · simp [hq]

/-- A collision is reported iff a listed pixel was on before the first toggle: no toggle reaches a later pixel. -/
theorem collision_foldl_blitPixel {ps : List (Nat × Nat)} (hnodup : ps.Nodup) (hin : ∀ p ∈ ps, p.1 < 64 ∧ p.2 < 32)
    (acc : Bool × Framebuffer) :
    (ps.foldl blitPixel acc).1 = true ↔ acc.1 = true ∨ ∃ p ∈ ps, acc.2.pixel p.1 p.2 = true := by
  induction ps generalizing acc with
  | nil => simp
  | cons p ps ih =>
    obtain ⟨hp, hnodup⟩ := List.nodup_cons.1 hnodup
    obtain ⟨hpin, hin⟩ := List.forall_mem_cons.1 hin
    have hlater : (∃ q ∈ ps, (blitPixel acc p).2.pixel q.1 q.2 = true) ↔ ∃ q ∈ ps, acc.2.pixel q.1 q.2 = true :=
      exists_congr fun q => and_congr_right fun hq => by
        rw [pixel_blitPixel acc hpin, if_neg (ne_of_mem_of_not_mem hq hp)]
    rw [List.foldl_cons, ih hnodup hin, hlater, blitPixel, Bool.or_eq_true, or_assoc, List.exists_mem_cons_iff]

/-- Settles O49: the targets of a sprite are distinct, so each is toggled once and met as it stood before. -/
theorem blitTogglesExactlyTheSetBits : Obligations.BlitTogglesExactlyTheSetBits := by
  intro fb x0 y0 bytes hinside
  have hnodup := spriteTargets_nodup x0 y0 bytes
  have hin : ∀ p ∈ spriteTargets x0 y0 bytes, p.1 < 64 ∧ p.2 < 32 := fun p hp =>
    hinside p.1 p.2 (mem_spriteTargets.1 hp)
  refine ⟨_, _, (blit_eq fb x0 y0 bytes).trans (if_pos hin), fun x y hit => ?_, fun x y hmiss => ?_, ?_⟩
  · exact (pixel_foldl_blitPixel hnodup hin _ (x, y)).trans (if_pos (mem_spriteTargets.2 hit))
  · exact (pixel_foldl_blitPixel hnodup hin _ (x, y)).trans (if_neg (mt mem_spriteTargets.1 hmiss))
  · simp [collision_foldl_blitPixel hnodup hin, mem_spriteTargets]

/-! ## The sprite of a draw -/

/-- The pixels that DXYN toggles when it runs in `s`: its sprite's bytes are read at `I` (R93, D8). -/
abbrev State.spriteAt (s : State) (x y : Reg) (n : Nibble) : Nat → Nat → Prop :=
  spriteHits (s.reg x).toNat (s.reg y).toNat (s.mem.readBytes s.iReg.toNat n.toNat)

theorem flagByte_eq_one_iff (f : Bool) : flagByte f = 1 ↔ f = true := by
  cases f <;> decide

/-- Bytes read depend on the memory through its reads alone. -/
theorem Mem.readBytes_congr {m m' : Mem} (h : ∀ a, m'.read a = m.read a) (a n : Nat) :
    m'.readBytes a n = m.readBytes a n := by
  induction n generalizing a with
  | zero => rfl
  | succ n ih => rw [Mem.readBytes, Mem.readBytes, h, ih]

/-- A draw that completes has its bytes in memory and its set bits inside the framebuffer. -/
theorem Completes.sprite_fits {s t : State} {x y : Reg} {n : Nibble} (h : Completes s t (.drw x y n)) :
    (n.toNat = 0 ∨ s.iReg.toNat + n.toNat - 1 ≤ 0xFFF) ∧ ∀ px py, s.spriteAt x y n px py → px < 64 ∧ py < 32 := by
  obtain ⟨p, hfit, hp, -⟩ := h
  rcases blit_cases s.fb (s.reg x).toNat (s.reg y).toNat (s.mem.readBytes (baseAddr s) n.toNat) with
    ⟨-, hinside⟩ | ⟨herr, -⟩
  · exact ⟨by rw [baseAddr] at hfit; omega, hinside⟩
  · cases hp.symm.trans herr

/-! ## The draw -/

/-- Settles O50: the bytes are in memory and the blit succeeds, so DXYN completes with the blit's own answer. -/
theorem drawSprite : Obligations.DrawSprite := by
  intro s x y n hfit hinside
  obtain ⟨c, fb', hblit, htoggled, hkept, hcollision⟩ := blitTogglesExactlyTheSetBits s.fb _ _ _ hinside
  have hc : Completes s _ (.drw x y n) := ⟨(c, fb'), by rw [baseAddr]; omega, hblit, rfl⟩
  have hflag : (((s.display fb').setReg flagReg (flagByte c)).advance).reg 0xF = flagByte c := by
    rw [State.reg_advance, flagReg_eq, State.reg_setReg_self]
  refine ⟨_, hc.exec_eq, fun px py => ?_, ?_, ?_, rfl, rfl, hc.frame⟩
  · change fb'.pixel px py = true ↔ _
    by_cases hit : s.spriteAt x y n px py
    · simp [htoggled px py hit, hit]
    · simp [hkept px py hit, hit]
  · rw [hflag]
    exact (flagByte_eq_zero_or_one c).symm
  · rw [hflag, flagByte_eq_one_iff, hcollision]
    exact exists₂_congr fun _ _ => and_comm

/-- Settles O51: both draws toggle the same pixels, so a pixel toggled is toggled back; and a pixel of the sprite that
is on when the second draw meets it is one the first turned on. -/
theorem drawTwiceRestores : Obligations.DrawTwiceRestores := by
  intro s t u v x y n _ hx ht hfb hu hux huy hI hmem hv
  obtain ⟨hfit, hinside⟩ := (completes_of_running hx ht).sprite_fits
  obtain ⟨t', hx', hfirst, -⟩ := drawSprite s x y n hfit hinside
  cases hx.symm.trans hx'
  have hdraw := drawSprite u x y n
  rw [hux, huy, hI, Mem.readBytes_congr hmem, hfb] at hdraw
  obtain ⟨v', hv', hsecond, -, hflag, -, -, hframe⟩ := hdraw hfit hinside
  cases hv.symm.trans hv'
  refine ⟨hframe.run.trans hu, Framebuffer.ext fun px py _ _ => Bool.eq_iff_iff.2 ?_, hflag.trans ?_⟩
  · rw [hsecond, ← Bool.not_eq_true, hfirst]
    by_cases hit : s.spriteAt x y n px py <;> simp [hit]
  · refine exists₂_congr fun px py => ?_
    rw [hfirst]
    by_cases hit : s.spriteAt x y n px py <;> simp [hit]

end Sys2Proof.Machine
end

section
/-! PROOFS. The keypad (spec 45_keypad.md): the wait for a key and the step that waits, and the obligations about EX9E,
EXA1 and FX0A. -/

namespace Sys2Proof.Machine

/-! ## The skips on a key -/

/-- Settles O52: a code below 16 names a key, and each instruction is a skip on that key's level. -/
theorem skipsOnKey : Obligations.SkipsOnKey := by
  intro s x h
  have hskp : Completes s _ (.skp x) := ⟨h, rfl⟩
  have hsknp : Completes s _ (.sknp x) := ⟨h, rfl⟩
  exact ⟨exec_skip hskp.exec_eq Iff.rfl, exec_skip hsknp.exec_eq (Bool.not_eq_true' _).to_iff⟩

/-! ## The wait for a key -/

/-- A key code fits in a byte (R101). -/
theorem toNat_keyByte (k : Reg) : (keyByte k).toNat = k.val :=
  Nat.mod_eq_of_lt (k.isLt.trans (by decide))

/-- With no key down FX0A leaves the state as it is, `pc` included (R101). -/
theorem exec_ldVxK_of_no_key {s : State} (x : Reg) (h : ∀ k : Reg, s.keys[k.val] = false) :
    exec (.ldVxK x) s = .next s :=
  have hc : Completes s s (.ldVxK x) := .inl ⟨highestKeyDown_none.2 h, rfl⟩
  hc.exec_eq

/-- Settles O53: the scan finds the key with none down above it, and `V[X]` alone is written. -/
theorem waitForKey : Obligations.WaitForKey := by
  refine ⟨fun s x k hk habove => ?_, fun s x => exec_ldVxK_of_no_key x⟩
  have hc : Completes s (s.writeReg x (keyByte k)) (.ldVxK x) :=
    .inr ⟨k, highestKeyDown_some.2 ⟨hk, habove⟩, rfl⟩
  obtain ⟨t, hx, hreg, hpc, hframe⟩ := exec_writeReg hc.exec_eq
  exact ⟨t, hx, by rw [hreg, toNat_keyByte], hpc, hframe⟩

/-! ## The machine that waits -/

/-- While FX0A waits its execute phase leaves the state as it is, so the step is the timer phase alone (R58, R101). -/
theorem step_waiting {s : State} (h : s.waiting) : step s = .next s.ticked := by
  obtain ⟨hs, hf, ⟨x, hd⟩, hkeys⟩ := h
  exact step_completed hs hf hd (exec_ldVxK_of_no_key x hkeys) hs

/-- Settles O54: waiting does not read the timers, so it is kept while they count down. -/
theorem waitingMovesOnlyTheTimers : Obligations.WaitingMovesOnlyTheTimers :=
  fun _ h k => run_of_step_ticked (P := State.waiting) (fun _ => step_waiting) (fun _ h => h) k h

end Sys2Proof.Machine
end

section
/-! PROOFS. The timers (spec 46_timers.md): the words that set a timer, what a completed instruction leaves in DT and
ST, and the obligations about FX07, FX15, FX18 and the timers of a step. -/

namespace Sys2Proof.Machine

/-! ## The transfers -/

/-- Settles O55: FX07 is a register write; FX15 and FX18 complete in every state, and their frames name one timer. -/
theorem timerTransfers : Obligations.TimerTransfers := by
  intro s x
  have hdt : Completes s _ (.ldDtVx x) := rfl
  have hst : Completes s _ (.ldStVx x) := rfl
  exact ⟨exec_writeReg rfl, ⟨_, hdt.exec_eq, rfl, rfl, hdt.frame⟩, _, hst.exec_eq, rfl, rfl, hst.frame⟩

/-! ## The words that set a timer -/

/-- A row of R48 with the one operand `X`: its words have the literal digits of `p` and are read with `f`. -/
abbrev rowOfX (p : Word) (f : Reg → Instr) : OpcodeRow := ⟨0xF0FF, p, fun w => f (xField w)⟩

theorem ldDtVx_mem_opcodeRows : rowOfX 0xF015 .ldDtVx ∈ opcodeRows := List.mem_of_getElem? (i := 27) rfl

theorem ldStVx_mem_opcodeRows : rowOfX 0xF018 .ldStVx ∈ opcodeRows := List.mem_of_getElem? (i := 28) rfl

/-- A rejected word matches no row (R49). -/
theorem mask_ne_of_decodeWord_error {p : Word} {f : Reg → Instr} (hrow : rowOfX p f ∈ opcodeRows) {w : Word}
    {e : DecodeError} (he : decodeWord w = .error e) : w &&& 0xF0FF ≠ p :=
  beq_eq_false_iff_ne.1 ((decodeWord_error.1 he).2 _ hrow)

/-! ## What a completed instruction leaves in a timer -/

/-- From the instruction to its word: the literal digits match the row exactly when the instruction is one the row
reads, here those that set the timer, and the register it copies is then the word's `X`. -/
theorem timer_of_decodeWord {timer : State → Byte} {p : Word} {f : Reg → Instr} {i : Instr} {s u : State} {w : Word}
    (hrow : rowOfX p f ∈ opcodeRows) (hreads : ∀ x, (rowOfX p f).Reads (f x)) (hd : decodeWord w = .ok i)
    (hset : ∀ x, i = f x → timer u = s.reg x) (hkeep : (∀ x, i ≠ f x) → timer u = timer s) :
    timer u = if w &&& 0xF0FF = p then s.reg (xField w) else timer s := by
  split
  · next hw =>
    have hf : decodeWord w = .ok (f (xField w)) := decodeWord_of_selects hrow (OpcodeRow.selects_iff.2 hw)
    exact hset _ (Except.ok.inj (hd.symm.trans hf))
  · next hw =>
    refine hkeep fun x hi => hw ?_
    rw [← encode_of_decodeWord hd, hi]
    exact OpcodeRow.selects_iff.1 (hreads x).1

/-- FX15 leaves `V[X]` in DT (R103), and no other instruction names DT in its frame. -/
theorem Completes.dt {i : Instr} {s u : State} {w : Word} (h : Completes s u i) (hd : decodeWord w = .ok i) :
    u.dt = if w &&& 0xF0FF = 0xF015 then s.reg (xField w) else s.dt := by
  refine timer_of_decodeWord (timer := State.dt) ldDtVx_mem_opcodeRows (reads_of_X rfl fun _ => rfl) hd ?_ ?_
  · rintro x rfl
    cases h
    rfl
  · exact fun hne => h.frame.dt (of_not_not fun hc => not_exists.2 hne (instr_of_touched_dt hc))

/-- FX18 leaves `V[X]` in ST (R104), and no other instruction names ST in its frame. -/
theorem Completes.st {i : Instr} {s u : State} {w : Word} (h : Completes s u i) (hd : decodeWord w = .ok i) :
    u.st = if w &&& 0xF0FF = 0xF018 then s.reg (xField w) else s.st := by
  refine timer_of_decodeWord (timer := State.st) ldStVx_mem_opcodeRows (reads_of_X rfl fun _ => rfl) hd ?_ ?_
  · rintro x rfl
    cases h
    rfl
  · exact fun hne => h.frame.st (of_not_not fun hc => not_exists.2 hne (instr_of_touched_st hc))

/-! ## The timers of a step -/

/-- Settles O13: a step that does not fault ends in a tick of what its word left in each timer; a word stepped over is
neither FX15 nor FX18. -/
theorem timersCountEveryStep : Obligations.TimersCountEveryStep := by
  intro s t hs h ht
  rcases step_cases h with ⟨hs', -⟩ | ⟨-, -, rfl⟩ | ⟨-, -, ⟨e, he⟩, rfl⟩ | ⟨-, -, i, u, hd, hx, hu, rfl⟩ |
    ⟨-, -, i, c, -, -, rfl⟩
  · cases hs.symm.trans hs'
  · cases ht
  · rw [if_neg (mask_ne_of_decodeWord_error ldDtVx_mem_opcodeRows he),
      if_neg (mask_ne_of_decodeWord_error ldStVx_mem_opcodeRows he)]
    exact ⟨toNat_tick s.dt, toNat_tick s.st⟩
  · have hc := completes_of_running hx hu
    rw [timerPhase_dt, timerPhase_st, toNat_tick, toNat_tick, hc.dt hd, hc.st hd, apply_ite BitVec.toNat,
      apply_ite BitVec.toNat]
    exact ⟨rfl, rfl⟩
  · cases ht

end Sys2Proof.Machine
end

section
/-! PROOFS. Faults (spec 60_exceptions.md): that nothing stops the machine outside its states, and that a step faults
exactly on R110's conditions. -/

namespace Sys2Proof.Machine

/-! ## Every instruction and every step answers a next state -/

/-- An instruction's result is the next state, or its fault is taken in the state before it, which is a next state. -/
theorem exec_next (i : Instr) (s : State) : ∃ t, exec i s = .next t ∧ (t.run = s.run ∨ t.run = .faulted) := by
  obtain ⟨r, hx, hrun⟩ := exec_complete i s
  cases r with
  | ok t => exact ⟨t, hx, .inl (hrun t rfl)⟩
  | error c => exact ⟨_, hx, .inr rfl⟩

/-- A faulted machine, a fetch out of bounds, a word stepped over and an instruction each answer a next state. -/
theorem step_next (s : State) : ∃ t, step s = .next t := by
  cases hs : s.run with
  | faulted => exact ⟨_, step_faulted hs⟩
  | running =>
    by_cases hf : s.canFetch
    · cases hd : decodeWord s.wordAtPc with
      | error e => exact ⟨_, step_unrecognized hs hf hd⟩
      | ok i =>
        obtain ⟨t, hx, -⟩ := exec_next i s
        exact ⟨finishStep t, by rw [step_instr hs hf hd, hx, mapNext]⟩
    · exact ⟨_, step_no_fetch hs hf⟩

/-- Settles O8: fault entry is itself a next state, and a step is an instruction or one of three steps without one. -/
theorem everyStepAnswersNext : Obligations.EveryStepAnswersNext :=
  ⟨exec_next, step_next⟩

/-! ## A condition of R110 makes the step fault with its cause -/

/-- A fault of the decoded instruction is what the step answers: no timer phase follows it (R58, R61). -/
theorem step_of_exec_fault {s : State} {i : Instr} {c : FaultCause} {w : Word} (hs : s.run = .running)
    (hf : s.canFetch) (hd : decodeWord s.wordAtPc = .ok i) (hx : exec i s = .next (s.faultedWith c w)) :
    step s = .next (s.faultedWith c w) := by
  rw [step_instr hs hf hd, hx]; rfl

/-- A set bit outside the framebuffer, as a pixel the sprite names and as a bit of a byte in memory (R94, R96). -/
theorem spriteAt_outside_iff {s : State} {x y : Reg} {n : Nibble} :
    (∃ px py, s.spriteAt x y n px py ∧ (px > 63 ∨ py > 31)) ↔
      ∃ r c : Nat, r < n.toNat ∧ c < 8 ∧ (s.mem.read (s.iReg.toNat + r)).getLsbD (7 - c) = true ∧
        ((s.reg x).toNat + c > 63 ∨ (s.reg y).toNat + r > 31) := by
  constructor
  · rintro ⟨_, _, ⟨r, c, hr, hc, hbit, rfl, rfl⟩, hout⟩
    rw [Mem.length_readBytes] at hr
    rw [Mem.getD_readBytes _ _ _ _ hr] at hbit
    exact ⟨r, c, hr, hc, hbit, hout⟩
  · rintro ⟨r, c, hr, hc, hbit, hout⟩
    exact ⟨_, _, ⟨r, c, by rwa [Mem.length_readBytes], hc, by rwa [Mem.getD_readBytes _ _ _ _ hr], rfl, rfl⟩, hout⟩

/-- The word tested by a condition decodes to the instruction that takes the fault in that condition. -/
theorem step_of_faultCondition {s : State} {c : FaultCause} (hs : s.run = .running) (h : faultCondition s c) :
    ∃ w, step s = .next (s.faultedWith c w) := by
  obtain ⟨-, hret, -, hcall, -, -, -, -, -, -, -, -, -, -, -, -, -, -, -, -, -, -, hdrw, hskp, hsknp, -, -, -, -, -, -,
    hldB, hldMem, hldVx⟩ := opcodeMap s.wordAtPc
  obtain ⟨xret, xcall, xldB, xld, xkey, xdrw, xblit⟩ := instructionsTakeTheirFaults
  cases c with
  | noFault => exact h.elim
  | fetchBounds => exact ⟨_, step_no_fetch hs (Nat.not_le_of_lt h)⟩
  | dataBounds =>
    obtain ⟨hf, ⟨hw, hI⟩ | ⟨hw | hw, hI⟩ | ⟨hw, hn, hI⟩⟩ := h
    · exact ⟨_, step_of_exec_fault hs hf (hldB hw) (xldB s _ hI)⟩
    · exact ⟨_, step_of_exec_fault hs hf (hldMem hw) (xld s _ hI).1⟩
    · exact ⟨_, step_of_exec_fault hs hf (hldVx hw) (xld s _ hI).2⟩
    · exact ⟨_, step_of_exec_fault hs hf (hdrw hw) (xdrw s _ _ _ hn hI)⟩
  | stackOverflow =>
    obtain ⟨hf, hw, hsp⟩ := h
    exact ⟨_, step_of_exec_fault hs hf (hcall hw) (xcall s _ hsp)⟩
  | stackUnderflow =>
    obtain ⟨hf, hw, hsp⟩ := h
    exact ⟨_, step_of_exec_fault hs hf (hret hw) (xret s hsp)⟩
  | fbRange =>
    obtain ⟨hf, hw, hfit, hbit⟩ := h
    have hrows : 0 < (nField s.wordAtPc).toNat := by
      obtain ⟨r, -, hr, -⟩ := hbit
      exact Nat.zero_lt_of_lt hr
    obtain ⟨px, py, hhit, hout⟩ := spriteAt_outside_iff.2 hbit
    exact ⟨_, step_of_exec_fault hs hf (hdrw hw) (xblit s _ _ _ px py (by omega) hhit hout)⟩
  | keyRange =>
    obtain ⟨hf, hw | hw, hk⟩ := h
    · exact ⟨_, step_of_exec_fault hs hf (hskp hw) (xkey s _ hk).1⟩
    · exact ⟨_, step_of_exec_fault hs hf (hsknp hw) (xkey s _ hk).2⟩

/-! ## Where no condition holds the instruction completes -/

/-- A row with the one operand `X`: the word has the row's literal digits, and its `X` is the instruction's. -/
theorem word_of_decodeWord_X {p : Word} (hp : p &&& 0x0F00 = 0) {f : Reg → Instr}
    (hf : ∀ x, encode (f x) = formatX (opField p) x (nnField p)) {w : Word} {x : Reg} (hd : decodeWord w = .ok (f x)) :
    w &&& 0xF0FF = p ∧ xField w = x := by
  rw [← encode_of_decodeWord hd, hf]
  exact ⟨(mask_F0FF hp).2 (by simp), by simp⟩

theorem word_of_decodeWord_drw {w : Word} {x y : Reg} {n : Nibble} (hd : decodeWord w = .ok (.drw x y n)) :
    w &&& 0xF000 = 0xD000 ∧ xField w = x ∧ yField w = y ∧ nField w = n := by
  rw [← encode_of_decodeWord hd, encode, opField_of_drw_mask]
  simp

/-- DXYN faults on its bytes' addresses or on a set bit outside, and draws in every other state (R93, R96, D26). -/
theorem drw_completes_or_faultCondition {s : State} {x y : Reg} {n : Nibble} (hf : s.canFetch)
    (hd : decodeWord s.wordAtPc = .ok (.drw x y n)) : (∃ t, Completes s t (.drw x y n)) ∨ ∃ c, faultCondition s c := by
  obtain ⟨hw, rfl, rfl, rfl⟩ := word_of_decodeWord_drw hd
  by_cases hI : (nField s.wordAtPc).toNat > 0 ∧ s.iReg.toNat + (nField s.wordAtPc).toNat - 1 > 0xFFF
  · exact .inr ⟨.dataBounds, hf, .inr (.inr ⟨hw, hI⟩)⟩
  · rcases blit_cases s.fb _ _ _ with ⟨hblit, -⟩ | ⟨-, hout⟩
    · exact .inl ⟨_, _, by rw [baseAddr]; omega, hblit, rfl⟩
    · exact .inr ⟨.fbRange, hf, hw, by omega, spriteAt_outside_iff.1 hout⟩

/-- An instruction that cannot complete in a state meets its own condition of R110 there. -/
theorem completes_or_faultCondition {s : State} {i : Instr} (hf : s.canFetch) (hd : decodeWord s.wordAtPc = .ok i) :
    (∃ t, Completes s t i) ∨ ∃ c, faultCondition s c := by
  cases i
  case ret =>
    by_cases hsp : s.sp.val = 0
    · exact .inr ⟨.stackUnderflow, hf, (encode_of_decodeWord hd).symm, hsp⟩
    · exact .inl ⟨_, hsp, rfl⟩
  case call nnn =>
    have hop : opField s.wordAtPc = 2 := encode_of_decodeWord hd ▸ opField_formatNNN _ nnn
    by_cases hsp : s.sp.val = 16
    · exact .inr ⟨.stackOverflow, hf, (mask_F000 rfl).2 hop, hsp⟩
    · exact .inl ⟨_, by omega, rfl⟩
  case drw x y n => exact drw_completes_or_faultCondition hf hd
  case skp x =>
    obtain ⟨hw, rfl⟩ := word_of_decodeWord_X (p := 0xE09E) rfl (fun _ => rfl) hd
    by_cases hk : (s.reg (xField s.wordAtPc)).toNat > 15
    · exact .inr ⟨.keyRange, hf, .inl hw, hk⟩
    · exact .inl ⟨_, Nat.not_le.1 hk, rfl⟩
  case sknp x =>
    obtain ⟨hw, rfl⟩ := word_of_decodeWord_X (p := 0xE0A1) rfl (fun _ => rfl) hd
    by_cases hk : (s.reg (xField s.wordAtPc)).toNat > 15
    · exact .inr ⟨.keyRange, hf, .inr hw, hk⟩
    · exact .inl ⟨_, Nat.not_le.1 hk, rfl⟩
  case ldBVx x =>
    obtain ⟨hw, -⟩ := word_of_decodeWord_X (p := 0xF033) rfl (fun _ => rfl) hd
    by_cases hI : s.iReg.toNat + 2 > 0xFFF
    · exact .inr ⟨.dataBounds, hf, .inl ⟨hw, hI⟩⟩
    · exact .inl ⟨_, Nat.not_le.1 hI, rfl⟩
  case ldMemVx x =>
    obtain ⟨hw, rfl⟩ := word_of_decodeWord_X (p := 0xF055) rfl (fun _ => rfl) hd
    by_cases hI : s.iReg.toNat + (xField s.wordAtPc).val > 0xFFF
    · exact .inr ⟨.dataBounds, hf, .inr (.inl ⟨.inl hw, hI⟩)⟩
    · exact .inl ⟨_, Nat.not_le.1 hI, rfl⟩
  case ldVxMem x =>
    obtain ⟨hw, rfl⟩ := word_of_decodeWord_X (p := 0xF065) rfl (fun _ => rfl) hd
    by_cases hI : s.iReg.toNat + (xField s.wordAtPc).val > 0xFFF
    · exact .inr ⟨.dataBounds, hf, .inr (.inl ⟨.inr hw, hI⟩)⟩
    · exact .inl ⟨_, Nat.not_le.1 hI, rfl⟩
  case ldVxK x =>
    cases hk : highestKeyDown s with
    | none => exact .inl ⟨s, .inl ⟨hk, rfl⟩⟩
    | some k => exact .inl ⟨_, .inr ⟨k, hk, rfl⟩⟩
  all_goals exact .inl ⟨_, rfl⟩

/-! ## The step faults exactly on the conditions -/

/-- A step that faults does so in a state where one of R110's conditions holds. -/
theorem exists_faultCondition {s t : State} (hs : s.run = .running) (h : step s = .next t) (ht : t.run = .faulted) :
    ∃ c, faultCondition s c := by
  rcases step_fault_cases hs h ht with ⟨hf, -⟩ | ⟨hf, ⟨i, hd⟩, -⟩
  · exact ⟨.fetchBounds, Nat.lt_of_not_le hf⟩
  · refine (completes_or_faultCondition hf hd).resolve_left fun ⟨u, hu⟩ => ?_
    have hrun : u.run = .running := hu.frame.run.trans hs
    cases h.symm.trans (step_completed hs hf hd hu.exec_eq hrun)
    cases hrun.symm.trans ht

/-- Settles O15: the step has one outcome, so the condition that holds where it faults is that of the cause it records. -/
theorem faultsExactlyOnTheirConditions : Obligations.FaultsExactlyOnTheirConditions := by
  intro s t hs h c
  constructor
  · rintro ⟨ht, rfl⟩
    obtain ⟨c, hc⟩ := exists_faultCondition hs h ht
    obtain ⟨w, hw⟩ := step_of_faultCondition hs hc
    cases h.symm.trans hw
    exact hc
  · intro hc
    obtain ⟨w, hw⟩ := step_of_faultCondition hs hc
    cases h.symm.trans hw
    exact ⟨rfl, rfl⟩

end Sys2Proof.Machine
end

section
/-! PROOFS. Reset and the fault state (spec 70_reset_and_hazards.md R120, 60_exceptions.md R112): of the host's actions
only `Reset` leaves FAULTED. -/

namespace Sys2Proof.Machine

theorem act_step {u : Session} {t : State} (h : step u.core = .next t) :
    u.act .step = .next { u with core := t, stepped := true } := by
  rw [Session.act, h]

/-- A key write that is answered leaves the run state as it was (R26). -/
theorem act_keySet_run {u v : Session} {code : Nat} {pressed : Bool} (h : u.act (.keySet code pressed) = .next v) :
    v.core.run = u.core.run := by
  rw [Session.act] at h
  split at h
  · cases h; rfl
  · cases h

/-- A faulted machine refuses `Load`, ignores the step, and keeps its run state over the two writes of the host
(R42, R60, R26). -/
theorem act_faulted {u v : Session} {a : HostAction} (hf : u.core.run = .faulted) (h : u.act a = .next v) :
    (∃ glyphs, a = .reset glyphs) ∨ v.core.run = .faulted := by
  cases a with
  | reset glyphs => exact .inl ⟨glyphs, rfl⟩
  | load bytes =>
    have hmay : ¬ u.mayLoad bytes = true := fun hmay => by
      cases hf.symm.trans (mayLoad_eq_true hmay).1
    cases (act_load_refused hmay).symm.trans h
  | keySet code pressed => exact .inr ((act_keySet_run h).trans hf)
  | redrawClear => cases h; exact .inr hf
  | step =>
    cases (act_step (step_faulted hf)).symm.trans h
    exact .inr hf

/-- Settles O57: `Reset` has no precondition, and each other action that is answered leaves a faulted machine faulted. -/
theorem resetAlwaysRestartsTheMachine : Obligations.ResetAlwaysRestartsTheMachine := by
  refine ⟨fun _ _ => rfl, fun u v a hf h hrun => (act_faulted hf h).resolve_right fun hv => ?_⟩
  cases hv.symm.trans hrun

end Sys2Proof.Machine
end
